-- ==== Sys2Proof/Word.lean ====
section
/-! DEFINITION. The words, bytes and one-bit values the rules name (00_scope.md R8, R11; 10_state.md R15). -/

namespace Sys2Proof

/-- A command word or the RESULT register: 16 bits, bit 0 the least significant (R8, R47, R19). -/
abbrev Word := BitVec 16

/-- One byte of a frame (R8). -/
abbrev Byte := BitVec 8

/-- The level of the wire (R11). -/
inductive Level where
  | low
  | high
  deriving DecidableEq, Repr, Inhabited

/-- The two values of the direction register DIR (R15). -/
inductive Direction where
  | released
  | asserted
  deriving DecidableEq, Repr, Inhabited

end Sys2Proof
end

