-- ==== Sys2Proof/Config.lean ====
section
/-! DEFINITION. The fixed parameters (00_scope.md R6), the open parameters (R7) and the free draws of the
bus environment and the host (10_state.md R28, R30). Nothing here changes as the machine runs (R26). -/

namespace Sys2Proof.Config

/-- MAX_FRAME_LEN: the largest frame, in bytes (R6). -/
@[simp] abbrev maxFrameLen : Nat := 16
/-- T_START_LOW_US (R6). -/
@[simp] abbrev startLowUs : Nat := 3700
/-- T_START_HIGH_US (R6). -/
@[simp] abbrev startHighUs : Nat := 800
/-- T_BIT0_LOW_US (R6). -/
@[simp] abbrev bit0LowUs : Nat := 1500
/-- T_BIT0_HIGH_US (R6). -/
@[simp] abbrev bit0HighUs : Nat := 900
/-- T_BIT1_LOW_US (R6). -/
@[simp] abbrev bit1LowUs : Nat := 600
/-- T_BIT1_HIGH_US (R6). -/
@[simp] abbrev bit1HighUs : Nat := 1800
/-- ACK_WINDOW_US: the longest ACK wait (R6). -/
@[simp] abbrev ackWindowUs : Nat := 2000
/-- BITS_PER_BLOCK (R6). -/
@[simp] abbrev bitsPerBlock : Nat := 8

/-- The outcome of one ACK wait: `Ack(e)` with 0 ≤ e ≤ ACK_WINDOW_US, or `Nack` (R30, R70). The bound is
part of the type, so every draw and every recorded event meets it. -/
inductive AckAnswer where
  | ack (e : Fin (ackWindowUs + 1))
  | nack
  deriving DecidableEq, Repr, Inhabited

/-- Names a GPIO pin; the label has no meaning beyond telling pins apart (R7). -/
structure PinId where
  label : Nat
  deriving DecidableEq, Repr, Inhabited

/-- CEC_PIN: which GPIO is the CEC wire. Open (R7, D21); assumption log 8. -/
opaque cecPin : PinId
/-- TIMING_TOL_US: largest difference between a nominal and a realized phase. Open (R7, D11); log 8. -/
opaque timingTolUs : Nat
/-- IRQ_LATENCY_BOUND_US: largest interruption of an assert-to-release sequence. Open (R7, D22); log 8. -/
opaque irqLatencyBoundUs : Nat
/-- ACK_POLL_PERIOD_US: interval between samples inside an ACK wait. Open, used by no rule (R7, R71); log 8. -/
opaque ackPollPeriodUs : Nat
/-- TIME_WIDTH_BITS: width of the real microsecond counter, `none` for unbounded. Open (R7, D12); log 8. -/
opaque timeWidthBits : Option Nat

/-- FREE VALUE. The environment's answers to `env_level()` beyond those a state lists (R30, D10); log 2. -/
opaque envLevel : Nat → Level
/-- FREE VALUE. The environment's answers to `env_ack()` beyond those a state lists (R30, D10); log 2. -/
opaque envAck : Nat → AckAnswer
/-- FREE VALUE. How long the host idles where a state lists no further move of it (R28, D13); log 3. -/
opaque idleUs : Nat → Nat

end Sys2Proof.Config
end

