-- ==== Sys2Proof/Syntax.lean ====
section
/-! DEFINITION. The commands of the block, one constructor per row of spec/opcode_table.json (30_encoding.md
R49). Each operand has the width of its field, so every value of the type is an instruction the encoding
can hold (R50 to R52). -/

namespace Sys2Proof

/-- One command (R49). -/
inductive Instr where
  /-- RELEASE: stop driving the wire (R62). -/
  | release
  /-- ASSERT: pull the wire low (R63). -/
  | assert
  /-- SAMPLE: read the level of the wire (R64). -/
  | sample
  /-- SEND_START: send the start bit (R68). -/
  | sendStart
  /-- SEND_BIT v: send one data bit (R69); `v` is the field V. -/
  | sendBit (v : BitVec 1)
  /-- WAIT_ACK: wait for an acknowledgement (R70). -/
  | waitAck
  /-- LOAD_FB idx, val: store one byte of the frame (R76); the fields IDX and VAL. -/
  | loadFb (idx : BitVec 4) (val : BitVec 8)
  /-- TRANSMIT n: send FB[0..n-1] as one frame (R77); the field N, 0 to 31. -/
  | transmit (n : BitVec 5)
  deriving DecidableEq, Repr

end Sys2Proof
end

