-- ==== Sys2Proof/WellFormed.lean ====
section
/-! DEFINITION. What an assembler accepts (30_encoding.md R57, R58). A command as the host writes it has
plain numbers for operands; the check says which lines name words. An `Instr` needs no check of its own: its
operands have exactly the widths of their fields (R50 to R52), so every `Instr` is well formed. -/

namespace Sys2Proof

/-- One line of assembly, pseudo-instructions and `.word` included (R57, R58). -/
inductive AsmLine where
  | release
  | assert
  | sample
  | sendStart
  | sendBit (v : Nat)
  | waitAck
  | loadFb (idx val : Nat)
  | transmit (n : Nat)
  /-- `.word w`: the word as is, whether it decodes or not. -/
  | rawWord (w : Nat)
  /-- `send_byte b`: eight SEND_BIT commands, bit 7 first. -/
  | sendByte (b : Nat)
  /-- `frame b0, …, b(k-1)`: k LOAD_FB commands, then TRANSMIT k. -/
  | frame (bs : List Nat)
  /-- `poll L, d`: the frame of the one header byte `(L << 4) | d`. -/
  | poll (initiator destination : Nat)
  deriving DecidableEq, Repr

/-- The operand ranges of R57 and R58. A line outside them names no word. -/
def AsmLine.wellFormed : AsmLine → Bool
  | .release | .assert | .sample | .sendStart | .waitAck => true
  | .sendBit v => v ≤ 1
  | .loadFb idx val => idx ≤ 15 && val ≤ 255
  | .transmit n => n ≤ 31
  | .rawWord w => w ≤ 0xFFFF
  | .sendByte b => b ≤ 255
  | .frame bs => 1 ≤ bs.length && bs.length ≤ Config.maxFrameLen && bs.all (· ≤ 255)
  | .poll initiator destination => initiator ≤ 15 && destination ≤ 15

end Sys2Proof
end

