-- ==== Sys2Proof/Decode.lean ====
section
/-! DEFINITION. The decoder of 30_encoding.md R55, total on every 16-bit word and naming why a word is
`Illegal`; then the encoder and the assembler (R48, R49, R57, R58). -/

namespace Sys2Proof

/-- Why a word selects no command (R53, R54). -/
inductive IllegalReason where
  /-- OP is 0x8 to 0xF (R54). -/
  | reservedOpcode
  /-- OP selects a format, and one of that format's reserved-zero bits is 1 (R53). -/
  | reservedBitSet
  deriving DecidableEq, Repr

/-- What a command word decodes to (R55). -/
inductive Decoded where
  | command (i : Instr)
  | illegal (why : IllegalReason)
  deriving DecidableEq, Repr

/-- The field `w[hi:lo]` of a word (R8), zero-extended (R50). -/
def wordField (w : Word) (hi lo : Nat) : BitVec (hi - lo + 1) := w.extractLsb hi lo

/-- The opcode field OP = `w[3:0]` (R47). -/
def opField (w : Word) : Nat := (wordField w 3 0).toNat

/-- Accepts a command whose reserved-zero bits, `w[15:lo]`, are all 0 (R53). -/
def needZeroFrom (w : Word) (lo : Nat) (i : Instr) : Decoded :=
  if wordField w 15 lo = 0 then .command i else .illegal .reservedBitSet

/-- Decodes one command word (R55). -/
def decode (w : Word) : Decoded :=
  match opField w with
  | 0x0 => needZeroFrom w 4 .release
  | 0x1 => needZeroFrom w 4 .assert
  | 0x2 => needZeroFrom w 4 .sample
  | 0x3 => needZeroFrom w 4 .sendStart
  | 0x4 => needZeroFrom w 5 (.sendBit (wordField w 4 4))
  | 0x5 => needZeroFrom w 4 .waitAck
  | 0x6 => .command (.loadFb (wordField w 7 4) (wordField w 15 8))
  | 0x7 => needZeroFrom w 9 (.transmit (wordField w 8 4))
  | _ => .illegal .reservedOpcode

/-- The instruction a word selects, or none. -/
def Decoded.instr? : Decoded → Option Instr
  | .command i => some i
  | .illegal _ => none

/-- The opcode of a command (R49). -/
def opcodeOf : Instr → BitVec 4
  | .release => 0x0
  | .assert => 0x1
  | .sample => 0x2
  | .sendStart => 0x3
  | .sendBit _ => 0x4
  | .waitAck => 0x5
  | .loadFb _ _ => 0x6
  | .transmit _ => 0x7

/-- The command word of an instruction: formats Z, V, L and N, high part first (R48, R49). -/
def encode : Instr → Word
  | .sendBit v => (0 : BitVec 11) ++ v ++ opcodeOf (.sendBit v)
  | .loadFb idx val => val ++ idx ++ opcodeOf (.loadFb idx val)
  | .transmit n => (0 : BitVec 7) ++ n ++ opcodeOf (.transmit n)
  | .release => (0 : BitVec 12) ++ opcodeOf .release
  | .assert => (0 : BitVec 12) ++ opcodeOf .assert
  | .sample => (0 : BitVec 12) ++ opcodeOf .sample
  | .sendStart => (0 : BitVec 12) ++ opcodeOf .sendStart
  | .waitAck => (0 : BitVec 12) ++ opcodeOf .waitAck

/-- The match of an instruction's row of the table in R49. -/
def rowMatch (i : Instr) : Word := (opcodeOf i).setWidth 16

/-- The mask of an instruction's row of the table in R49. -/
def rowMask : Instr → Word
  | .sendBit _ => 0xFFEF
  | .loadFb _ _ => 0x000F
  | .transmit _ => 0xFE0F
  | .release | .assert | .sample | .sendStart | .waitAck => 0xFFFF

/-- The decoder as the host asks it: an instruction of `nbits` bits whose bits are `w`, bit 0 the least
significant. Every command is exactly one 16-bit word (R56); a shorter row's missing bits are 0. -/
def decodeTableWord (nbits w : Nat) : Option Instr :=
  if nbits ≤ 16 ∧ w < 2 ^ nbits then (decode (BitVec.ofNat 16 w)).instr? else none

/-- The header byte of a frame, `(initiator << 4) | destination` (R42). -/
def headerByte (initiator destination : Nat) : Nat := initiator <<< 4 ||| destination

/-- The LOAD_FB commands that hand over the bytes `bs`, from cell `i` on (R58). -/
def loadsFrom : Nat → List Nat → List Instr
  | _, [] => []
  | i, b :: bs => .loadFb (BitVec.ofNat 4 i) (BitVec.ofNat 8 b) :: loadsFrom (i + 1) bs

/-- The commands of `frame b0, …, b(k-1)` (R58). -/
def frameInstrs (bs : List Nat) : List Instr :=
  loadsFrom 0 bs ++ [.transmit (BitVec.ofNat 5 bs.length)]

/-- The commands of `send_byte b`: bit 7 first, bit 0 last (R58). -/
def sendByteInstrs (b : Nat) : List Instr :=
  [7, 6, 5, 4, 3, 2, 1, 0].map fun k => .sendBit (BitVec.ofBool (b.testBit k))

/-- The words of one assembly line; none where the line names no word (R57, R58). -/
def assemble (l : AsmLine) : Option (List Word) :=
  if l.wellFormed then
    some <|
      match l with
      | .release => [encode .release]
      | .assert => [encode .assert]
      | .sample => [encode .sample]
      | .sendStart => [encode .sendStart]
      | .sendBit v => [encode (.sendBit (BitVec.ofNat 1 v))]
      | .waitAck => [encode .waitAck]
      | .loadFb idx val => [encode (.loadFb (BitVec.ofNat 4 idx) (BitVec.ofNat 8 val))]
      | .transmit n => [encode (.transmit (BitVec.ofNat 5 n))]
      | .rawWord w => [BitVec.ofNat 16 w]
      | .sendByte b => (sendByteInstrs b).map encode
      | .frame bs => (frameInstrs bs).map encode
      | .poll initiator destination => (frameInstrs [headerByte initiator destination]).map encode
  else none

end Sys2Proof
end

