-- ==== Sys2Proof/Machine/State.lean ====
section
/-! DEFINITION. The state of the block (10_state.md R15 to R32), the model's own fields for what the outside
does (R28, R30, 60_exceptions.md R103), the ways a step can stop, and reset (70_reset_and_hazards.md R107). -/

namespace Sys2Proof.Machine

open Sys2Proof.Config

/-- One event of the history H (R24). -/
inductive Event where
  /-- A write of DIR: the time of the write and the value written. -/
  | drive (t : Nat) (d : Direction)
  /-- A read of the wire by SAMPLE or the bus-free check: the time and the level read. -/
  | sample (t : Nat) (lvl : Level)
  /-- One ACK wait: the time it started and its outcome. -/
  | ackWait (t : Nat) (o : AckAnswer)
  deriving DecidableEq, Repr

/-- The sequencer register SEQ (R22). -/
inductive SeqPos where
  | idle
  | check
  | start
  /-- Data bit `j` (0 is the first sent) of block `i`. -/
  | data (i : Nat) (j : Fin 8)
  | eom (i : Nat)
  | ack (i : Nat)
  | done
  deriving DecidableEq, Repr

/-- The frame buffer FB (R17): (index, byte) pairs, indices strictly rising and below 16. A cell that is not
listed is `unwritten`. -/
abbrev Memory := List Host.Cell

/-- The canonical form of a memory from index `lo` on: indices strictly rising, each below 16. No listed cell
can equal an unlisted one, because an unlisted cell holds no byte. -/
def Memory.wfFrom : Nat → Memory → Bool
  | _, [] => true
  | lo, (a, _) :: m => lo ≤ a && a < 16 && Memory.wfFrom (a + 1) m

/-- The canonical form of the frame buffer. -/
def Memory.wf (m : Memory) : Bool := Memory.wfFrom 0 m

/-- A source of free draws: the answers a state lists, in the order they will be asked, and after them a free
value at a counter (R30; assumption log 2). -/
structure Oracle (α : Type) where
  scripted : List α
  drawn : Nat
  deriving DecidableEq, Repr

/-- A move of the host or the platform (R103, R28, R107, R108; assumption log 1). -/
inductive HostMove where
  /-- Write a command word to CMD (R21). -/
  | issue (w : Word)
  /-- Let `d` microseconds pass (R28). -/
  | idle (d : Nat)
  /-- Read RESULT; it changes nothing (R38). -/
  | readResult
  /-- Reset the block between two commands (R107). -/
  | reset
  /-- Issue `w`, and a reset arrives while the block runs it (R108). -/
  | issueCutByReset (w : Word)
  deriving DecidableEq, Repr

/-- The whole state. The first seven fields are the complete architectural state of R32; the last three hold
what the environment, the host and the platform will do. -/
structure State where
  /-- DIR, the direction register (R15). -/
  dir : Direction
  /-- FB, the frame buffer (R17). -/
  fb : Memory
  /-- RESULT (R19). -/
  result : Word
  /-- CMD, the command port: the word written and not yet run (R21). -/
  cmd : Option Word
  /-- SEQ, the sequencer (R22). -/
  seq : SeqPos
  /-- TIME_US (R23). -/
  timeUs : Nat
  /-- H, the event history, oldest first (R24). -/
  hist : List Event
  /-- The environment's coming answers to `env_level()` (R30). -/
  levels : Oracle Level
  /-- The environment's coming answers to `env_ack()` (R30). -/
  acks : Oracle AckAnswer
  /-- The coming moves of the host and the platform (R103). -/
  moves : Oracle HostMove
  deriving DecidableEq, Repr

/-- Why a run ends unfinished: the two model faults of R97. -/
inductive Fault where
  /-- Raised by TRANSMIT n at the lowest i < n whose cell FB[i] is unwritten (R79). Safe: the block would send
  some byte, and no claim about it can be proved. -/
  | unwrittenFrameByte (i : Nat)
  /-- Raised by a reset that arrives while a command runs (R108). Safe: the model gives such a run no meaning. -/
  | resetDuringCommand
  deriving DecidableEq, Repr

/-- Why the model has no move. -/
inductive Refusal where
  /-- An instruction that has no meaning yet, by its mnemonic; raised by no arm of exec. Safe. -/
  | notModelled (mnemonic : String)
  /-- Raised by step where SEQ is not IDLE: a command is in progress and the host has no move (R22, R27, R103).
  Safe: no run from reset reaches it, and the model goes no further where one starts there. -/
  | commandRunning
  deriving DecidableEq, Repr

/-- The state right after reset (R32, R107). The model's own three fields are empty (assumption logs 1 to 3). -/
def State.reset : State where
  dir := .released
  fb := []
  result := 0x0000
  cmd := none
  seq := .idle
  timeUs := 0
  hist := []
  levels := ⟨[], 0⟩
  acks := ⟨[], 0⟩
  moves := ⟨[], 0⟩

end Sys2Proof.Machine
end

