-- ==== Sys2Proof/Machine/Flags.lean ====
section
/-! DEFINITION. The RESULT register: the values each outcome writes and how its fields are read, the flags
LEVEL and ACKED among them (10_state.md R19, R20, R31). -/

namespace Sys2Proof.Machine

open Sys2Proof.Config

/-- A level stored as a bit: High = 1, Low = 0 (R11). -/
def levelBit : Level → Word
  | .high => 1
  | .low => 0

/-- DIR as its one bit: Released = 0, Asserted = 1 (R15). -/
def dirBit : Direction → BitVec 1
  | .released => 0
  | .asserted => 1

/-- An ACK outcome stored as a bit: ACK = 1, NACK = 0 (R70). -/
def ackedBit : AckAnswer → Word
  | .ack _ => 1
  | .nack => 0

/-- CODE = OK, every other field 0 (R19). -/
def resultOk : Word := 0x0001

/-- What SAMPLE writes: CODE = OK and the LEVEL flag (R64). -/
def resultSample (lvl : Level) : Word := (0x0001 : Word) ||| levelBit lvl <<< 8

/-- What WAIT_ACK writes: CODE = OK and the ACKED flag (R70). -/
def resultWaitAck (o : AckAnswer) : Word := (0x0001 : Word) ||| ackedBit o <<< 9

/-- CODE = BUS_BUSY (R80). -/
def resultBusBusy : Word := 0x0002

/-- CODE = NOT_ACKNOWLEDGED with BLOCK = i (R85). -/
def resultNotAcknowledged (i : Nat) : Word := (0x0003 : Word) ||| BitVec.ofNat 16 i <<< 4

/-- CODE = INVALID_LENGTH (R78). -/
def resultInvalidLength : Word := 0x0004

/-- CODE = ILLEGAL_COMMAND (R95). -/
def resultIllegalCommand : Word := 0x0005

/-- RESULT.CODE, bits [3:0] (R19). -/
def resultCode (r : Word) : BitVec 4 := r.extractLsb' 0 4

/-- RESULT.BLOCK, bits [7:4] (R19). -/
def resultBlock (r : Word) : BitVec 4 := r.extractLsb' 4 4

/-- RESULT.LEVEL, bit [8] (R19). -/
def resultLevel (r : Word) : Bool := r.getLsbD 8

/-- RESULT.ACKED, bit [9] (R19). -/
def resultAcked (r : Word) : Bool := r.getLsbD 9

/-- The reserved bits [15:10] of RESULT (R19). -/
def resultReserved (r : Word) : BitVec 6 := r.extractLsb' 10 6

end Sys2Proof.Machine
end

