-- ==== Sys2Proof/Machine/Operands.lean ====
section
/-! DEFINITION. What the operand fields and the bytes of a frame mean: bit values, indices, lengths, the order
of data bits and the EOM bit (30_encoding.md R50 to R52; 20_memory.md R40 to R42; 43_frame_transmitter.md R82,
R83). -/

namespace Sys2Proof.Machine

open Sys2Proof.Config

/-- The value of the bit to send: the field V (R50). -/
def bitOperand (v : BitVec 1) : Bool := v.getLsbD 0

/-- The frame-buffer index named by IDX, 0 to 15 (R51). -/
def cellIndex (idx : BitVec 4) : Nat := idx.toNat

/-- The frame length named by N, 0 to 31 (R52). -/
def frameLength (n : BitVec 5) : Nat := n.toNat

/-- TRANSMIT's length check passes: 1 to MAX_FRAME_LEN (R78). -/
def lengthLegal (n : Nat) : Bool := n ≠ 0 && n ≤ maxFrameLen

/-- The data bits of a block in the order they are sent: j = 0 first (R82). -/
def dataBitOrder : List (Fin 8) := [0, 1, 2, 3, 4, 5, 6, 7]

/-- The j-th data bit sent of the byte `b` is `b[7-j]` (R41). -/
def dataBit (b : Byte) (j : Fin 8) : Bool := b.getLsbD (7 - j)

/-- The EOM bit of block `i` of a frame of `n` bytes: 1 for the last block alone (R83). -/
def eomBit (n i : Nat) : Bool := i = n - 1

/-- The nine bits of block `i` of a frame of `n` bytes, in the order they are sent (R82, R83). -/
def blockBits (n i : Nat) (b : Byte) : List Bool := dataBitOrder.map (dataBit b) ++ [eomBit n i]

/-- The initiator's logical address in a header byte: the high nibble (R42). -/
def headerInitiator (b : Byte) : BitVec 4 := b.extractLsb' 4 4

/-- The destination's logical address in a header byte: the low nibble (R42). -/
def headerDestination (b : Byte) : BitVec 4 := b.extractLsb' 0 4

end Sys2Proof.Machine
end

