-- ==== Sys2Proof/Machine/Ops.lean ====
section
/-! DEFINITION. The named operations every rule is written with (00_scope.md R9): reads and writes of the frame
buffer, writes of DIR, RESULT and SEQ, time, the history, the two questions to the bus environment, the level of
the wire (41_line_driver.md R61), an illegal word (60_exceptions.md R95) and reset (70_reset_and_hazards.md
R107). The block has no trap entry and no trap return: an error is a RESULT write (R91, R99). -/

namespace Sys2Proof.Machine

open Sys2Proof.Config

/-! ### The frame buffer -/

/-- `FB[a]`, none where the cell is unwritten (R17). -/
def Memory.read : Memory → Nat → Option Byte
  | [], _ => none
  | (k, v) :: m, a => if k = a then some v else Memory.read m a

/-- `FB[a] <- v`, keeping the indices strictly rising (R17). -/
def Memory.write : Memory → Nat → Byte → Memory
  | [], a, v => [(a, v)]
  | (k, u) :: m, a, v =>
    if a < k then (a, v) :: (k, u) :: m
    else if a = k then (a, v) :: m
    else (k, u) :: Memory.write m a v

/-- The bytes of `count` cells from cell `i` on, or the lowest of them that is unwritten (R79). -/
def Memory.readFrom (m : Memory) : (i count : Nat) → Except Nat (List Byte)
  | _, 0 => .ok []
  | i, count + 1 =>
    match m.read i with
    | none => .error i
    | some b =>
      match Memory.readFrom m (i + 1) count with
      | .error j => .error j
      | .ok bs => .ok (b :: bs)

/-- The frame FB[0..n-1], or the lowest unwritten cell of it (R77, R79). -/
def Memory.readFrame (m : Memory) (n : Nat) : Except Nat (List Byte) := m.readFrom 0 n

/-! ### Writes of the registers, time and the history -/

/-- `record(e)`: appends one event to H (R24). -/
def State.record (e : Event) (s : State) : State := { s with hist := s.hist ++ [e] }

/-- `DIR <- d`: every write appends a Drive event, a redundant one too (R9, R15). -/
def State.setDir (d : Direction) (s : State) : State :=
  { s with dir := d, hist := s.hist ++ [.drive s.timeUs d] }

/-- `busy_wait(d)`: exactly `d` microseconds pass, and nothing else (R10). -/
def State.busyWait (d : Nat) (s : State) : State := { s with timeUs := s.timeUs + d }

/-- `RESULT <- r`: all 16 bits (R20). -/
def State.setResult (r : Word) (s : State) : State := { s with result := r }

/-- `SEQ <- q` (R22). -/
def State.setSeq (q : SeqPos) (s : State) : State := { s with seq := q }

/-- `FB[a] <- v` (R76). -/
def State.setCell (a : Nat) (v : Byte) (s : State) : State := { s with fb := s.fb.write a v }

/-- The end of a TRANSMIT: `RESULT <- r ; SEQ <- IDLE` (R77). -/
def State.endTransmit (r : Word) (s : State) : State := { s with result := r, seq := .idle }

/-- The word on CMD is handed to the block and kept no longer (R21). -/
def State.takeCommand (s : State) : State := { s with cmd := none }

/-! ### The bus environment -/

/-- The next answer of an oracle whose free values are `free`. -/
def Oracle.head {α : Type} (free : Nat → α) (o : Oracle α) : α :=
  match o.scripted with
  | a :: _ => a
  | [] => free o.drawn

/-- An oracle once its next answer has been given. -/
def Oracle.tail {α : Type} (o : Oracle α) : Oracle α :=
  match o.scripted with
  | _ :: rest => { o with scripted := rest }
  | [] => { o with drawn := o.drawn + 1 }

/-- The answer an oracle gives to its (k+1)-th question from now. -/
def Oracle.answer {α : Type} (free : Nat → α) : Oracle α → Nat → α
  | o, 0 => o.head free
  | o, k + 1 => Oracle.answer free o.tail k

/-- `env_level()` would answer this now (R30). -/
def State.envLevelNow (s : State) : Level := s.levels.head envLevel

/-- The environment has answered one `env_level()`. -/
def State.askedLevel (s : State) : State := { s with levels := s.levels.tail }

/-- `env_ack()` would answer this to the (k+1)-th question from now (R30). -/
def State.envAckAt (s : State) (k : Nat) : AckAnswer := s.acks.answer envAck k

/-- The environment has answered one `env_ack()`. -/
def State.askedAck (s : State) : State := { s with acks := s.acks.tail }

/-- `line_level()`: Low while the block asserts, the environment's answer while it is released (R61). -/
def State.lineLevel (s : State) : Level :=
  match s.dir with
  | .asserted => .low
  | .released => s.envLevelNow

/-- The state once `line_level()` has been read: the environment is asked only while DIR is Released (R61). -/
def State.afterLineLevel (s : State) : State :=
  match s.dir with
  | .asserted => s
  | .released => s.askedLevel

/-- What a DIR value drives onto the pin: nothing, or logic 0; never High (R16). -/
def drivenLevel : Direction → Option Level
  | .released => none
  | .asserted => some .low

/-! ### Illegal words and reset -/

/-- An `Illegal` word: RESULT becomes ILLEGAL_COMMAND and nothing else changes (R95). -/
def State.illegalCommand (s : State) : State := s.setResult resultIllegalCommand

/-- Reset between commands: every architectural field takes its value of R32 (R107). What the outside will do is
no part of the block and stays (assumption log 5). -/
def State.resetBlock (s : State) : State :=
  { State.reset with levels := s.levels, acks := s.acks, moves := s.moves }

end Sys2Proof.Machine
end

