-- ==== Sys2Proof/Machine/BitEngine.lean ====
section
/-! DEFINITION. The bit engine: the step bodies `start_steps`, `bit_steps` and `ack_steps`, which TRANSMIT uses
too, and the commands SEND_START, SEND_BIT and WAIT_ACK (42_bit_engine.md). -/

namespace Sys2Proof.Machine

open Sys2Proof.Config

/-- `low_us(v)` (R67). -/
def lowUs : Bool → Nat
  | false => bit0LowUs
  | true => bit1LowUs

/-- `high_us(v)` (R67). -/
def highUs : Bool → Nat
  | false => bit0HighUs
  | true => bit1HighUs

/-- One pulse: assert, wait the low phase, release, wait the high phase (R68, R69). -/
def pulseSteps (low high : Nat) (s : State) : State :=
  (((s.setDir .asserted).busyWait low).setDir .released).busyWait high

/-- `start_steps()` (R68). -/
def startSteps (s : State) : State := pulseSteps startLowUs startHighUs s

/-- `bit_steps(v)` (R69). -/
def bitSteps (v : Bool) (s : State) : State := pulseSteps (lowUs v) (highUs v) s

/-- The outcome of an ACK wait that starts now: with DIR = Asserted the first poll sees the block's own low (R70). -/
def State.ackOutcome (s : State) : AckAnswer :=
  match s.dir with
  | .asserted => .ack 0
  | .released => s.envAckAt 0

/-- The state once the environment has been asked, which happens only while DIR is Released (R70). -/
def State.afterAckOutcome (s : State) : State :=
  match s.dir with
  | .asserted => s
  | .released => s.askedAck

/-- How long an ACK wait lasts (R70, R71). -/
def ackWaitUs : AckAnswer → Nat
  | .ack e => e.val
  | .nack => ackWindowUs

/-- `ack_steps()`; its outcome is `s.ackOutcome` (R70). -/
def ackSteps (s : State) : State :=
  (s.afterAckOutcome.record (.ackWait s.timeUs s.ackOutcome)).busyWait (ackWaitUs s.ackOutcome)

/-- SEND_START (R68). -/
def execSendStart (s : State) : Host.Outcome State Fault Refusal :=
  .next ((startSteps s).setResult resultOk)

/-- SEND_BIT v (R69). -/
def execSendBit (v : BitVec 1) (s : State) : Host.Outcome State Fault Refusal :=
  .next ((bitSteps (bitOperand v) s).setResult resultOk)

/-- WAIT_ACK (R70). -/
def execWaitAck (s : State) : Host.Outcome State Fault Refusal :=
  .next ((ackSteps s).setResult (resultWaitAck s.ackOutcome))

end Sys2Proof.Machine
end

