-- ==== Sys2Proof/Machine/FrameTransmitter.lean ====
section
/-! DEFINITION. The frame transmitter: LOAD_FB and TRANSMIT (43_frame_transmitter.md). -/

namespace Sys2Proof.Machine

open Sys2Proof.Config

/-- LOAD_FB idx, val (R76). -/
def execLoadFb (idx : BitVec 4) (val : BitVec 8) (s : State) : Host.Outcome State Fault Refusal :=
  .next ((s.setCell (cellIndex idx) val).setResult resultOk)

/-- One data bit of block `i` (R77, R82). -/
def sendDataBit (i : Nat) (b : Byte) (j : Fin 8) (s : State) : State :=
  bitSteps (dataBit b j) (s.setSeq (.data i j))

/-- The 8 data bits of block `i`, most significant first (R82). -/
def sendDataBits (i : Nat) (b : Byte) (s : State) : State :=
  dataBitOrder.foldl (fun s j => sendDataBit i b j s) s

/-- Block `i` of a frame of `n` bytes up to its ACK wait: data bits, EOM bit, release (R82 to R84). -/
def sendBlock (n i : Nat) (b : Byte) (s : State) : State :=
  ((bitSteps (eomBit n i) ((sendDataBits i b s).setSeq (.eom i))).setSeq (.ack i)).setDir .released

/-- The blocks from block `i` on: each is sent and its ACK awaited; the first NACK ends the frame (R85), the last
ACK completes it (R86). -/
def sendBlocks (n : Nat) : Nat → List Byte → State → State
  | _, [], s => (s.setSeq .done).endTransmit resultOk
  | i, b :: rest, s =>
    match (sendBlock n i b s).ackOutcome with
    | .nack => (ackSteps (sendBlock n i b s)).endTransmit (resultNotAcknowledged i)
    | .ack _ => sendBlocks n (i + 1) rest (ackSteps (sendBlock n i b s))

/-- The bus-free check: one sample, recorded (R80). -/
def busFreeCheck (s : State) : State := s.afterLineLevel.record (.sample s.timeUs s.lineLevel)

/-- TRANSMIT from its bus-free check on, for a frame whose length and bytes have been checked (R80 to R86). -/
def transmitFrame (bytes : List Byte) (s : State) : State :=
  match s.lineLevel with
  | .low => (busFreeCheck s).endTransmit resultBusBusy
  | .high => sendBlocks bytes.length 0 bytes (startSteps ((busFreeCheck s).setSeq .start))

/-- TRANSMIT n (R77): length check (R78), written-byte check (R79), then the frame. -/
def execTransmit (n : BitVec 5) (s : State) : Host.Outcome State Fault Refusal :=
  if lengthLegal (frameLength n) then
    match s.fb.readFrame (frameLength n) with
    | .error i => .fault (.unwrittenFrameByte i)
    | .ok bytes => .next (transmitFrame bytes (s.setSeq .check))
  else .next ((s.setSeq .check).endTransmit resultInvalidLength)

/-- The source's transmitter as one call on a byte sequence (R59): the frame, or INVALID_LENGTH where it has no
byte or more than 16. -/
def transmitSequence (bytes : List Byte) (s : State) : State :=
  if lengthLegal bytes.length then transmitFrame bytes (s.setSeq .check)
  else (s.setSeq .check).endTransmit resultInvalidLength

end Sys2Proof.Machine
end

