-- ==== Sys2Proof/Machine/LineDriver.lean ====
section
/-! DEFINITION. The line driver commands RELEASE, ASSERT and SAMPLE (41_line_driver.md). -/

namespace Sys2Proof.Machine

/-- RELEASE (R62). -/
def execRelease (s : State) : Host.Outcome State Fault Refusal :=
  .next ((s.setDir .released).setResult resultOk)

/-- ASSERT (R63). -/
def execAssert (s : State) : Host.Outcome State Fault Refusal :=
  .next ((s.setDir .asserted).setResult resultOk)

/-- SAMPLE (R64). -/
def execSample (s : State) : Host.Outcome State Fault Refusal :=
  .next ((s.afterLineLevel.record (.sample s.timeUs s.lineLevel)).setResult (resultSample s.lineLevel))

end Sys2Proof.Machine
end

