-- ==== Sys2Proof/Machine/Dispatch.lean ====
section
/-! DEFINITION. One arm per command (30_encoding.md R49), each one call of its meaning. -/

namespace Sys2Proof.Machine

def exec (i : Instr) (s : State) : Host.Outcome State Fault Refusal :=
  match i with
  | .release => Sys2Proof.Machine.execRelease s
  | .assert => Sys2Proof.Machine.execAssert s
  | .sample => Sys2Proof.Machine.execSample s
  | .sendStart => Sys2Proof.Machine.execSendStart s
  | .sendBit v => Sys2Proof.Machine.execSendBit v s
  | .waitAck => Sys2Proof.Machine.execWaitAck s
  | .loadFb idx val => Sys2Proof.Machine.execLoadFb idx val s
  | .transmit n => Sys2Proof.Machine.execTransmit n s

end Sys2Proof.Machine
end

