-- ==== Sys2Proof/Machine/CommandPort.lean ====
section
/-! DEFINITION. What happens at the command port: the block runs the word it is handed (30_encoding.md R55), and
between two commands the host or the platform makes its next move (60_exceptions.md R103; 10_state.md R28;
70_reset_and_hazards.md R107, R108). -/

namespace Sys2Proof.Machine

open Sys2Proof.Config

/-- The block runs one command word: decode comes first, and an Illegal word only writes RESULT (R55, R95, R96). -/
def runWord (w : Word) (s : State) : Host.Outcome State Fault Refusal :=
  match decode w with
  | .command i => exec i s
  | .illegal _ => .next s.illegalCommand

/-- The move the host or the platform makes next; where the state lists none, an idle step of free length (R28;
assumption log 3). -/
def State.nextMove (s : State) : HostMove := s.moves.head fun k => .idle (idleUs k)

/-- The state once the next move has been taken off the list. -/
def State.moveTaken (s : State) : State := { s with moves := s.moves.tail }

/-- An idle step: time passes and nothing else changes (R28). -/
def State.idleStep (d : Nat) (s : State) : State := s.busyWait d

/-- One move of the host or the platform between two commands (R103). -/
def hostMove (s : State) : Host.Outcome State Fault Refusal :=
  match s.nextMove with
  | .issue w => .next { s.moveTaken with cmd := some w }
  | .idle d => .next (s.moveTaken.idleStep d)
  | .readResult => .next s.moveTaken
  | .reset => .next s.moveTaken.resetBlock
  | .issueCutByReset _ => .fault .resetDuringCommand

/-- One step: a word on CMD is run; with none there, the host or the platform moves. Neither has a move while
SEQ is not IDLE (R22, R27). -/
def stepPort (s : State) : Host.Outcome State Fault Refusal :=
  match s.seq with
  | .idle =>
    match s.cmd with
    | some w => runWord w s.takeCommand
    | none => hostMove s
  | _ => .refused .commandRunning

/-- The word `w` of `nbits` bits stands on CMD and the block is ready to run it (R21, R22; assumption log 1). -/
def placeCommand (s : State) (nbits w : Nat) : State :=
  { s with cmd := some (BitVec.ofNat 16 (w % 2 ^ nbits)), seq := .idle }

end Sys2Proof.Machine
end

