-- ==== Sys2Proof/Machine/Step.lean ====
section
/-! DEFINITION. One step of the machine: a thin call of the command port (10_state.md R27). -/

namespace Sys2Proof.Machine

/-- One step of the machine: a command, or a move of the host between commands. -/
def step (s : State) : Host.Outcome State Fault Refusal := stepPort s

/-- `s` with this command word on CMD, where the next step takes its command from (R21). -/
def State.withFetchWord (s : State) (nbits w : Nat) : State := placeCommand s nbits w

end Sys2Proof.Machine
end

