-- ==== Sys2Proof/Machine/Wave.lean ====
section
/-! DEFINITION. What can be observed on the wire, as functions of the history H: the drive at a time
(10_state.md R25), the low pulses and the symbols they carry (42_bit_engine.md R67, R73), and which realized
lengths a nominal pulse may take (70_reset_and_hazards.md R116). -/

namespace Sys2Proof.Machine

open Sys2Proof.Config

/-- The time of an event (R24). -/
def Event.time : Event → Nat
  | .drive t _ => t
  | .sample t _ => t
  | .ackWait t _ => t

/-- What one event does to the drive seen at time `t`: a Drive event not later than `t` replaces it (R25). -/
def driveStep (t : Nat) (d : Direction) : Event → Direction
  | .drive t' d' => if t' ≤ t then d' else d
  | .sample _ _ => d
  | .ackWait _ _ => d

/-- `drive(t)`: the value of the last Drive event not later than `t`, Released where there is none (R25). -/
def driveAt (h : List Event) (t : Nat) : Direction := h.foldl (driveStep t) .released

/-- The level of the wire at `t` where the other devices leave it at `others`: the wired combination (R61, R119). -/
def wireLevelAt (h : List Event) (t : Nat) (others : Level) : Level :=
  match driveAt h t with
  | .asserted => .low
  | .released => others

/-- The Drive events of a history, as (time, value) pairs (R24). -/
def drivesOf : List Event → List (Nat × Direction)
  | [] => []
  | .drive t d :: h => (t, d) :: drivesOf h
  | .sample _ _ :: h => drivesOf h
  | .ackWait _ _ :: h => drivesOf h

/-- How many Sample events a history holds (R24). -/
def sampleCount : List Event → Nat
  | [] => 0
  | .sample _ _ :: h => sampleCount h + 1
  | .drive _ _ :: h => sampleCount h
  | .ackWait _ _ :: h => sampleCount h

/-- How many AckWait events a history holds (R24). -/
def ackWaitCount : List Event → Nat
  | [] => 0
  | .ackWait _ _ :: h => ackWaitCount h + 1
  | .drive _ _ :: h => ackWaitCount h
  | .sample _ _ :: h => ackWaitCount h

/-- How many Drive events a history holds (R24). -/
def driveCount (h : List Event) : Nat := (drivesOf h).length

/-- Drops each Drive that another follows at the same time: a zero-width pulse is no pulse on the wire (R25). -/
def settleDrives : List (Nat × Direction) → List (Nat × Direction)
  | [] => []
  | x :: rest =>
    match rest with
    | [] => [x]
    | y :: _ => if x.1 = y.1 then settleDrives rest else x :: settleDrives rest

/-- The completed low pulses, as (start, length) pairs; `since` is the start of a pulse still in progress. -/
def lowPulsesFrom : Option Nat → List (Nat × Direction) → List (Nat × Nat)
  | _, [] => []
  | none, (t, .asserted) :: rest => lowPulsesFrom (some t) rest
  | none, (_, .released) :: rest => lowPulsesFrom none rest
  | some t0, (_, .asserted) :: rest => lowPulsesFrom (some t0) rest
  | some t0, (t, .released) :: rest => (t0, t - t0) :: lowPulsesFrom none rest

/-- The completed low pulses of the waveform of a history. -/
def lowPulses (h : List Event) : List (Nat × Nat) := lowPulsesFrom none (settleDrives (drivesOf h))

/-- What a pulse stands for (R73). -/
inductive Symbol where
  | start
  | bit (v : Bool)
  deriving DecidableEq, Repr

/-- The nominal low phase of a symbol (R67). -/
def Symbol.lowPhase : Symbol → Nat
  | .start => startLowUs
  | .bit v => lowUs v

/-- The nominal high phase of a symbol (R67). -/
def Symbol.highPhase : Symbol → Nat
  | .start => startHighUs
  | .bit v => highUs v

/-- The symbol a low phase of this length carries (R73). -/
def symbolOf (low : Nat) : Option Symbol :=
  if low = startLowUs then some .start
  else if low = bit0LowUs then some (.bit false)
  else if low = bit1LowUs then some (.bit true)
  else none

/-- The symbols a history puts on the wire, in order. -/
def symbolsOf (h : List Event) : List (Option Symbol) := (lowPulses h).map fun p => symbolOf p.2

/-- `x` is within `tol` of `nominal`. -/
def within (tol nominal x : Nat) : Bool := nominal ≤ x + tol && x ≤ nominal + tol

/-- A realized low and high phase are within `tol` of the nominal `low` and `high`: each phase, and the two together
(R116; assumption log 7). -/
def pulseWithin (tol low high low' high' : Nat) : Bool :=
  within tol low low' && within tol high high' && within tol (low + high) (low' + high')

/-- A realized low phase and high phase of these lengths realize the symbol within the tolerance (R116). -/
def Symbol.realizedBy (y : Symbol) (tol low high : Nat) : Bool :=
  pulseWithin tol y.lowPhase y.highPhase low high

/-- The symbol a realized low phase stands for, when it may be `tol` off its nominal length (R73, R116). -/
def symbolNear (tol low : Nat) : Option Symbol :=
  if within tol startLowUs low then some .start
  else if within tol bit0LowUs low then some (.bit false)
  else if within tol bit1LowUs low then some (.bit true)
  else none

end Sys2Proof.Machine
end

