-- ==== Sys2Proof/Machine/FrameShape.lean ====
section
/-! DEFINITION. The shape the rules give one transmission, written down without the machine: the events of its
bits and blocks, its duration, and how many blocks are sent (43_frame_transmitter.md R81 to R86, R90). Claims
about TRANSMIT compare the machine with it. -/

namespace Sys2Proof.Machine

open Sys2Proof.Config

/-- The two Drive events of a pulse that starts at `t` (R68, R69). -/
def pulseEvents (t low : Nat) : List Event := [.drive t .asserted, .drive (t + low) .released]

/-- The Drive events of data bits sent one after another from `t` on, 2400 µs each (R67, R69). -/
def bitsEvents : Nat → List Bool → List Event
  | _, [] => []
  | t, v :: vs => pulseEvents t (lowUs v) ++ bitsEvents (t + 2400) vs

/-- A block without its ACK wait lasts 9 bits of 2400 µs (R90). -/
@[simp] abbrev blockUs : Nat := 21600

/-- The events of block `i` of a frame of `n` bytes that starts at `t`, whose ACK wait ends in `o`: nine bits, the
release, the wait (R82 to R84). -/
def blockEvents (n i t : Nat) (b : Byte) (o : AckAnswer) : List Event :=
  bitsEvents t (blockBits n i b) ++ [.drive (t + blockUs) .released, .ackWait (t + blockUs) o]

/-- The events of the blocks from block `i` on, the first starting at `t`, each byte with its ACK outcome (R85,
R119). -/
def blocksEvents (n : Nat) : Nat → Nat → List (Byte × AckAnswer) → List Event
  | _, _, [] => []
  | i, t, (b, o) :: rest =>
    blockEvents n i t b o ++ blocksEvents n (i + 1) (t + blockUs + ackWaitUs o) rest

/-- How long these blocks take with their ACK waits (R90). -/
def blocksUs : List (Byte × AckAnswer) → Nat
  | [] => 0
  | (_, o) :: rest => blockUs + ackWaitUs o + blocksUs rest

/-- A start bit lasts 4500 µs (R67). -/
@[simp] abbrev startUs : Nat := startLowUs + startHighUs

/-- How many blocks are sent when the ACK waits will end so: all up to the first NACK, its block included (R85). -/
def blocksSent : List AckAnswer → Nat
  | [] => 0
  | .nack :: _ => 1
  | .ack _ :: rest => blocksSent rest + 1

/-- Every ACK wait ends in an ACK. -/
def allAcked : List AckAnswer → Bool
  | [] => true
  | .nack :: _ => false
  | .ack _ :: rest => allAcked rest

/-- The outcomes of the next `n` ACK waits (R30). -/
def State.nextAcks (s : State) (n : Nat) : List AckAnswer := (List.range n).map s.envAckAt

/-- An oracle once it has answered `k` questions. -/
def Oracle.advance {α : Type} : Nat → Oracle α → Oracle α
  | 0, o => o
  | k + 1, o => Oracle.advance k o.tail

/-- The blocks a frame of these bytes sends from `s`: each byte with the outcome of its ACK wait (R85). -/
def State.sentBlocks (s : State) (bytes : List Byte) : List (Byte × AckAnswer) :=
  (bytes.zip (s.nextAcks bytes.length)).take (blocksSent (s.nextAcks bytes.length))

/-- The RESULT of a frame of `n` bytes that passed its bus-free check (R85, R86). -/
def State.frameResult (s : State) (n : Nat) : Word :=
  if allAcked (s.nextAcks n) then 0x0001
  else (0x0003 : Word) ||| BitVec.ofNat 16 (blocksSent (s.nextAcks n) - 1) <<< 4

/-- The symbols of `sent` blocks of a frame: each block's data bits, most significant first, then its EOM bit
(R41, R83). -/
def blockSymbols (n : Nat) : Nat → List Byte → List Symbol
  | _, [] => []
  | i, b :: rest => (blockBits n i b).map .bit ++ blockSymbols n (i + 1) rest

end Sys2Proof.Machine
end

