-- ==== Sys2Proof/Machine/Realize.lean ====
section
/-! DEFINITION. The waveforms a real block may put on the wire where the model's times are nominal (10_state.md R25;
70_reset_and_hazards.md R116, R117): a run as the spans of time it is made of, the waveform of such spans, and which
realized spans stay within the tolerance band. Assumption log 7. -/

namespace Sys2Proof.Machine

open Sys2Proof.Config

/-- One span of a run, in the order of time. Inside a command time passes in busy_waits alone, and between commands
in idle steps alone (R10, R117). -/
inductive Span where
  /-- A write of DIR that no low or high phase of its own follows. -/
  | drive (d : Direction)
  /-- A start bit or data bit: assert, a busy_wait of `low`, release, a busy_wait of `high` (R68, R69). -/
  | pulse (low high : Nat)
  /-- The busy_wait of an ACK wait (R70). -/
  | ackWait (us : Nat)
  /-- An idle step (R28). -/
  | gap (us : Nat)
  deriving DecidableEq, Repr

/-- How long a span lasts. -/
def Span.us : Span → Nat
  | .drive _ => 0
  | .pulse low high => low + high
  | .ackWait us => us
  | .gap us => us

/-- How long these spans last together. -/
def spansUs : List Span → Nat
  | [] => 0
  | x :: rest => x.us + spansUs rest

/-- The Drive events of one span that starts at `t`. -/
def Span.events (t : Nat) : Span → List Event
  | .drive d => [.drive t d]
  | .pulse low _ => pulseEvents t low
  | .ackWait _ => []
  | .gap _ => []

/-- The Drive events of these spans, the first starting at `t` (R117: no time passes between two spans). -/
def waveEvents : Nat → List Span → List Event
  | _, [] => []
  | t, x :: rest => x.events t ++ waveEvents (t + x.us) rest

/-! ### The spans of a run -/

/-- When the wait after an event ends: at the next event, or where the command ends (R117). -/
def nextMoment (finish : Nat) : List Event → Nat
  | [] => finish
  | e :: _ => e.time

/-- The spans of ONE command, read from the events it recorded and the time it ended. A write of Asserted that a write
of Released follows inside one command is a start bit or a data bit: an ASSERT command records its one event alone. -/
def commandSpans (finish : Nat) : List Event → List Span
  | [] => []
  | .drive t .asserted :: .drive u .released :: rest =>
    .pulse (u - t) (nextMoment finish rest - u) :: commandSpans finish rest
  | .drive _ d :: rest => .drive d :: commandSpans finish rest
  | .sample _ _ :: rest => commandSpans finish rest
  | .ackWait _ o :: rest => .ackWait (ackWaitUs o) :: commandSpans finish rest

/-- The spans of a command that took the block from `s` to `t`. -/
def spansOfCommand (s t : State) : List Span := commandSpans t.timeUs (t.hist.drop s.hist.length)

/-- The spans so far, after a step from `s` to `t` that began with the spans `before`. A reset starts the history and
the time anew (R107). -/
def stepSpans (s t : State) (before : List Span) : List Span :=
  match s.cmd with
  | some _ => before ++ spansOfCommand s t
  | none =>
    match s.nextMove with
    | .idle d => before ++ [.gap d]
    | .reset => []
    | .issue _ => before
    | .readResult => before
    | .issueCutByReset _ => before

/-- The spans after at most `k` steps from `s`; a run that stops keeps those it has (R97). -/
def runSpans : Nat → State → List Span → List Span
  | 0, _, before => before
  | k + 1, s, before =>
    match step s with
    | .next t => runSpans k t (stepSpans s t before)
    | .fault _ => before
    | .refused _ => before

/-- The spans are those of the state: their waveform has the history's Drive events and they end now. -/
def State.alignedWith (s : State) (spans : List Span) : Prop :=
  drivesOf s.hist = drivesOf (waveEvents 0 spans) ∧ s.timeUs = spansUs spans

/-! ### Realizations -/

/-- A realized span stays within `tol` of its nominal span: every phase a busy_wait makes, the ACK wait's among them,
and every start or data bit as a whole (R116). A gap is the time that really passed, so it is no phase (R28). -/
def Span.realizedBy (tol : Nat) : Span → Span → Bool
  | .drive d, .drive d' => d = d'
  | .pulse low high, .pulse low' high' => pulseWithin tol low high low' high'
  | .ackWait us, .ackWait us' => within tol us us'
  | .gap us, .gap us' => us = us'
  | _, _ => false

/-- The second list realizes the first, span by span (R116). -/
def realizes (tol : Nat) : List Span → List Span → Bool
  | [], [] => true
  | x :: rest, x' :: rest' => x.realizedBy tol x' && realizes tol rest rest'
  | _, _ => false

/-- `h` is a waveform that a real block may have put on the wire after at most `k` steps from `s`, where the spans
`before` went before: a realization of the run within TIMING_TOL_US (R25, R116). From reset, `before` is empty. -/
def observedWave (k : Nat) (s : State) (before : List Span) (h : List Event) : Prop :=
  ∃ real, realizes timingTolUs (runSpans k s before) real = true ∧ h = waveEvents 0 real

/-! ### The spans of a transmission, written down without the machine -/

/-- The spans of data bits sent one after another (R67, R69). -/
def bitSpans (vs : List Bool) : List Span := vs.map fun v => .pulse (lowUs v) (highUs v)

/-- The spans of block `i` of a frame of `n` bytes: nine bits, the release, the ACK wait (R82 to R84). -/
def blockSpans (n i : Nat) (b : Byte) (o : AckAnswer) : List Span :=
  bitSpans (blockBits n i b) ++ [.drive .released, .ackWait (ackWaitUs o)]

/-- The spans of the blocks from block `i` on, each byte with its ACK outcome (R85, R119). -/
def blocksSpans (n : Nat) : Nat → List (Byte × AckAnswer) → List Span
  | _, [] => []
  | i, (b, o) :: rest => blockSpans n i b o ++ blocksSpans n (i + 1) rest

end Sys2Proof.Machine
end

