-- ==== Sys2Proof/Safety.lean ====
section
/-! DEFINITION. What claims call a sound state and a ready frame: the invariant of the machine, the legal values of
RESULT (10_state.md R19), and the host's duty before a TRANSMIT (60_exceptions.md R103). -/

namespace Sys2Proof.Machine

open Sys2Proof.Config

/-- Every event is at or after the one before it, and none is later than `now` (R23, R24). -/
def chronological (h : List Event) (now : Nat) : Prop :=
  (h.map Event.time).Pairwise (· ≤ ·) ∧ ∀ e ∈ h, e.time ≤ now

/-- RESULT holds a value some outcome of the table in R19 gives it: the code is 0 to 5, the reserved bits are 0,
BLOCK is 0 but for NOT_ACKNOWLEDGED, LEVEL and ACKED are 0 but for OK, and never both 1. -/
def resultLegal (r : Word) : Bool :=
  resultReserved r = 0 && resultCode r ≤ 5 &&
    (resultCode r = 3 || resultBlock r = 0) &&
    (resultCode r = 1 || (!resultLevel r && !resultAcked r)) &&
    !(resultLevel r && resultAcked r)

/-- What holds whenever the host can act: the frame buffer is in canonical form, SEQ is IDLE (R22), RESULT is a
legal value (R19), the history is in order of time and not of the future (R24), and DIR is the drive the history
gives for now (R25). -/
structure State.Inv (s : State) : Prop where
  bufferCanonical : s.fb.wf = true
  sequencerIdle : s.seq = .idle
  resultLegal : resultLegal s.result = true
  historyOrdered : chronological s.hist s.timeUs
  driveIsDir : driveAt s.hist s.timeUs = s.dir

/-- The host's duty before TRANSMIT n: FB[0..n-1] are written (R103, R111). -/
def State.frameReady (s : State) (n : Nat) : Prop := ∀ i, i < n → (s.fb.read i).isSome

/-- The state an outcome gives, or none where it stops. -/
def stateOf? (o : Host.Outcome State Fault Refusal) : Option State :=
  match o with
  | .next s => some s
  | .fault _ => none
  | .refused _ => none

/-- The fault an outcome gives, or none. -/
def faultOf? (o : Host.Outcome State Fault Refusal) : Option Fault :=
  match o with
  | .fault f => some f
  | .next _ => none
  | .refused _ => none

end Sys2Proof.Machine
end

