-- ==== Sys2Proof/Certificates/Slice0/Obligations.lean ====
section
/-! DEFINITION. The claims about the block, for the provers. Each docstring names the rules it formalises; where a
clause rests on a convention of the model, it names the assumption log entry. -/

open Sys2Proof Sys2Proof.Machine Sys2Proof.Config

/-! ### Reset -/

/-- R107: reset puts every piece of state in its value of R32, records no event, and the pin is driven by nothing. -/
def Obligations.ResetPutsEveryPieceOfStateInPlace : Prop :=
  ∀ r, (r = State.reset ∨ ∃ s : State, r = s.resetBlock) →
    r.dir = .released ∧ dirBit r.dir = 0 ∧ (∀ a, r.fb.read a = none) ∧ r.result = 0x0000 ∧ r.cmd = none ∧
      r.seq = .idle ∧ r.timeUs = 0 ∧ r.hist = [] ∧ (∀ t, driveAt r.hist t = .released) ∧
      drivenLevel r.dir = none

/-- The model's form of R107 and R108 (the list of moves is the model's, assumption logs 1 and 4): a reset between
commands resets the block, and a reset that arrives while a command runs is the fault. That a reset leaves the
environment's answers and the host's moves as they were is the model's choice (assumption log 5). -/
def Obligations.ResetOnlyBetweenCommands : Prop :=
  (∀ s : State, s.seq = .idle → s.cmd = none →
    (s.nextMove = .reset → step s = .next s.moveTaken.resetBlock) ∧
    (∀ w, s.nextMove = .issueCutByReset w → step s = .fault .resetDuringCommand)) ∧
  (∀ s : State, s.resetBlock.levels = s.levels ∧ s.resetBlock.acks = s.acks ∧ s.resetBlock.moves = s.moves)

/-! ### The line driver -/

/-- R62: RELEASE, its word, its effect, its flags and its corner cases. -/
def Obligations.ReleaseStopsDrivingTheWire : Prop :=
  (encode .release = 0x0000 ∧ decode 0x0000 = .command .release) ∧
  (∀ s : State, exec .release s =
    .next { s with dir := .released, hist := s.hist ++ [.drive s.timeUs .released], result := 0x0001 }) ∧
  (resultLevel 0x0001 = false ∧ resultAcked 0x0001 = false) ∧
  (∀ s t : State, s.Inv → s.dir = .released → exec .release s = .next t →
    ∀ τ, driveAt t.hist τ = driveAt s.hist τ) ∧
  (∀ s t : State, exec .release s = .next t → t.lineLevel = s.envLevelNow)

/-- R63: ASSERT, its word, its effect, its flags and its corner cases: which commands can release the wire again,
and that a TRANSMIT issued while asserted fails its bus-free check and leaves the wire asserted. -/
def Obligations.AssertPullsTheWireLow : Prop :=
  (encode .assert = 0x0001 ∧ decode 0x0001 = .command .assert) ∧
  (∀ s : State, exec .assert s =
    .next { s with dir := .asserted, hist := s.hist ++ [.drive s.timeUs .asserted], result := 0x0001 }) ∧
  (resultLevel 0x0001 = false ∧ resultAcked 0x0001 = false) ∧
  (∀ s t : State, s.Inv → s.dir = .asserted → exec .assert s = .next t →
    ∀ τ, driveAt t.hist τ = driveAt s.hist τ) ∧
  (∀ (i : Instr) (s t : State), s.dir = .asserted → exec i s = .next t →
    t.dir = .asserted ∨ i = .release ∨ i = .sendStart ∨ ∃ v, i = .sendBit v) ∧
  (∀ (n : BitVec 5) (s : State), s.dir = .asserted → 1 ≤ n.toNat → n.toNat ≤ 16 → s.frameReady n.toNat →
    ∃ t, exec (.transmit n) s = .next t ∧ t.result = 0x0002 ∧ t.dir = .asserted)

/-- R61: the level the block reads is Low while it asserts, with the environment not asked, and else the
environment's answer; reading it changes nothing but the environment's list (assumption log 2). -/
def Obligations.LineLevelIsTheWiredCombination : Prop :=
  (∀ s : State, s.dir = .asserted → s.lineLevel = .low ∧ s.afterLineLevel = s) ∧
  (∀ s : State, s.dir = .released →
    s.lineLevel = s.envLevelNow ∧ s.afterLineLevel = { s with levels := s.levels.tail }) ∧
  (∀ (h : List Event) (τ : Nat), wireLevelAt h τ .low = .low ∧
    (wireLevelAt h τ .high = .low ↔ driveAt h τ = .asserted))

/-- R64: SAMPLE, its word, its effect for both values of DIR, and that two samples in a row may differ. That the answer
is taken off a list of the environment's answers is the model's choice (assumption log 2). -/
def Obligations.SampleReadsTheLevelOfTheWire : Prop :=
  (encode .sample = 0x0002 ∧ decode 0x0002 = .command .sample) ∧
  (∀ s : State, s.dir = .asserted → exec .sample s =
    .next { s with hist := s.hist ++ [.sample s.timeUs .low], result := 0x0001 }) ∧
  (∀ s : State, s.dir = .released → exec .sample s =
    .next { s with levels := s.levels.tail, hist := s.hist ++ [.sample s.timeUs s.envLevelNow],
                   result := if s.envLevelNow = .high then 0x0101 else 0x0001 }) ∧
  (resultLevel 0x0101 = true ∧ resultLevel 0x0001 = false ∧ resultAcked 0x0101 = false ∧
    resultAcked 0x0001 = false) ∧
  (∃ s t u : State, exec .sample s = .next t ∧ exec .sample t = .next u ∧ t.result ≠ u.result)

/-- R65: no line driver command fails, waits or reads FB, and the pin is never driven high. -/
def Obligations.LineDriverCommandsCannotFail : Prop :=
  (∀ (i : Instr) (s : State), i = .release ∨ i = .assert ∨ i = .sample →
    ∃ t, exec i s = .next t ∧ resultCode t.result = 1 ∧ t.timeUs = s.timeUs ∧
      ∀ m, exec i { s with fb := m } = .next { t with fb := m }) ∧
  (∀ d, drivenLevel d ≠ some .high) ∧ drivenLevel .asserted = some .low

/-! ### The bit engine -/

/-- R68: SEND_START, its word, its effect, and its corner case: begun while asserted, the wire stays low for the
whole low phase and what it was before is unchanged. -/
def Obligations.SendStartSendsTheStartBit : Prop :=
  (encode .sendStart = 0x0003 ∧ decode 0x0003 = .command .sendStart) ∧
  (∀ s : State, exec .sendStart s =
    .next { s with dir := .released, timeUs := s.timeUs + 4500,
                   hist := s.hist ++ [.drive s.timeUs .asserted, .drive (s.timeUs + 3700) .released],
                   result := 0x0001 }) ∧
  (resultLevel 0x0001 = false ∧ resultAcked 0x0001 = false) ∧
  (∀ s t : State, s.Inv → s.dir = .asserted → exec .sendStart s = .next t →
    (∀ τ, τ ≤ s.timeUs → driveAt t.hist τ = driveAt s.hist τ) ∧
    (∀ τ, s.timeUs ≤ τ → τ < s.timeUs + 3700 → driveAt t.hist τ = .asserted))

/-- R69: SEND_BIT, its two words, its effect, its corner cases, and that the encoding holds no other value of v. -/
def Obligations.SendBitSendsOneDataBit : Prop :=
  (encode (.sendBit 0) = 0x0004 ∧ decode 0x0004 = .command (.sendBit 0) ∧
    encode (.sendBit 1) = 0x0014 ∧ decode 0x0014 = .command (.sendBit 1)) ∧
  (∀ (v : BitVec 1) (s : State), exec (.sendBit v) s =
    .next { s with dir := .released, timeUs := s.timeUs + 2400,
                   hist := s.hist ++ [.drive s.timeUs .asserted,
                     .drive (s.timeUs + if v = 1 then 600 else 1500) .released],
                   result := 0x0001 }) ∧
  (resultLevel 0x0001 = false ∧ resultAcked 0x0001 = false) ∧
  (∀ (v : BitVec 1) (s t : State), s.Inv → s.dir = .asserted → exec (.sendBit v) s = .next t →
    (∀ τ, τ ≤ s.timeUs → driveAt t.hist τ = driveAt s.hist τ) ∧
    (∀ τ, s.timeUs ≤ τ → (τ < s.timeUs + if v = 1 then 600 else 1500) → driveAt t.hist τ = .asserted)) ∧
  (∀ w : Word, w.toNat % 16 = 4 → 32 ≤ w.toNat → ∀ i, decode w ≠ .command i)

/-- R70: WAIT_ACK, its word, its effect for every outcome, and that every ACK time from 0 to 2000 is possible. That the
answer is taken off a list of the environment's answers is the model's choice (assumption log 2). -/
def Obligations.WaitAckWaitsForAnAcknowledgement : Prop :=
  (encode .waitAck = 0x0005 ∧ decode 0x0005 = .command .waitAck) ∧
  (∀ s : State, s.dir = .asserted → exec .waitAck s =
    .next { s with hist := s.hist ++ [.ackWait s.timeUs (.ack 0)], result := 0x0201 }) ∧
  (∀ (s : State) (e : Fin 2001), s.dir = .released → s.envAckAt 0 = .ack e → exec .waitAck s =
    .next { s with timeUs := s.timeUs + e.val, acks := s.acks.tail,
                   hist := s.hist ++ [.ackWait s.timeUs (.ack e)], result := 0x0201 }) ∧
  (∀ s : State, s.dir = .released → s.envAckAt 0 = .nack → exec .waitAck s =
    .next { s with timeUs := s.timeUs + 2000, acks := s.acks.tail,
                   hist := s.hist ++ [.ackWait s.timeUs .nack], result := 0x0001 }) ∧
  (resultAcked 0x0201 = true ∧ resultAcked 0x0001 = false ∧ resultLevel 0x0201 = false ∧
    resultLevel 0x0001 = false) ∧
  (∀ e : Fin 2001, ∃ s : State, s.dir = .released ∧ s.envAckAt 0 = .ack e)

/-- R73: the length of the low phase alone carries the symbol: what SEND_BIT and SEND_START put on the wire is one
low pulse whose length reads back as the symbol, in a period of 2400 or 4500 µs. -/
def Obligations.TheLowPhaseCarriesTheSymbol : Prop :=
  (∀ (v : BitVec 1) (s t : State), exec (.sendBit v) s = .next t →
    ∃ ev, t.hist = s.hist ++ ev ∧ lowPulses ev = [(s.timeUs, if v = 1 then 600 else 1500)] ∧
      symbolsOf ev = [some (.bit (v == 1))] ∧ t.timeUs = s.timeUs + 2400) ∧
  (∀ s t : State, exec .sendStart s = .next t →
    ∃ ev, t.hist = s.hist ++ ev ∧ lowPulses ev = [(s.timeUs, 3700)] ∧
      symbolsOf ev = [some .start] ∧ t.timeUs = s.timeUs + 4500) ∧
  (∀ (low : Nat) (y : Symbol), symbolOf low = some y ↔ low = y.lowPhase)

/-- R74: the bit engine samples nothing in a start bit or a data bit: what it does is the same whatever the
environment answers, and it records neither a sample nor an ACK wait. -/
def Obligations.BitEngineDoesNotWatchTheWire : Prop :=
  ∀ (i : Instr) (s : State), (i = .sendStart ∨ ∃ v, i = .sendBit v) →
    ∃ t, exec i s = .next t ∧
      (∀ l a, exec i { s with levels := l, acks := a } = .next { t with levels := l, acks := a }) ∧
      ∃ ev, t.hist = s.hist ++ ev ∧ sampleCount ev = 0 ∧ ackWaitCount ev = 0

/-- R75: SEND_START, SEND_BIT and WAIT_ACK may be issued at any time, and what each does depends on DIR, TIME_US and
the environment's answers alone. -/
def Obligations.TheBitEngineKeepsNoContext : Prop :=
  ∀ (i : Instr) (s u : State), (i = .sendStart ∨ (∃ v, i = .sendBit v) ∨ i = .waitAck) →
    s.dir = u.dir → s.timeUs = u.timeUs → s.acks = u.acks →
    ∃ t x ev, exec i s = .next t ∧ exec i u = .next x ∧ t.hist = s.hist ++ ev ∧ x.hist = u.hist ++ ev ∧
      t.dir = x.dir ∧ t.timeUs = x.timeUs ∧ t.result = x.result ∧ t.acks = x.acks

/-- R72 with R67: a start bit or data bit appends exactly two Drive events, Asserted then Released, lasts 4500 or
2400 µs and ends released; WAIT_ACK appends none. -/
def Obligations.EveryBitAppendsTwoDrives : Prop :=
  (∀ (i : Instr) (s t : State), (i = .sendStart ∨ ∃ v, i = .sendBit v) → exec i s = .next t →
    t.dir = .released ∧ t.timeUs = s.timeUs + (if i = .sendStart then 4500 else 2400) ∧
    ∃ ev low, t.hist = s.hist ++ ev ∧ drivesOf ev = [(s.timeUs, .asserted), (s.timeUs + low, .released)] ∧
      low < t.timeUs - s.timeUs) ∧
  (∀ s t : State, exec .waitAck s = .next t → ∃ ev, t.hist = s.hist ++ ev ∧ driveCount ev = 0)

/-- R116 (the form of the tolerance band is the model's, assumption log 7): below 450 µs of tolerance, no realized
pulse realizes two symbols, so a receiver can tell them apart. -/
def Obligations.RealizedPulsesKeepSymbolsApart : Prop :=
  (∀ (tol low high : Nat) (x y : Symbol), tol < 450 → x.realizedBy tol low high = true →
    y.realizedBy tol low high = true → x = y) ∧
  (∀ (y : Symbol) (tol : Nat), y.realizedBy tol y.lowPhase y.highPhase = true) ∧
  (∃ low high, Symbol.realizedBy (.bit true) 450 low high = true ∧ Symbol.realizedBy (.bit false) 450 low high = true)

/-! ### The frame transmitter -/

/-- R76: LOAD_FB, its word, its effect, and that the cell it names reads back and every other cell is unchanged. -/
def Obligations.LoadFbStoresOneByte : Prop :=
  ∀ (idx : BitVec 4) (val : BitVec 8) (s : State),
    (encode (.loadFb idx val)).toNat = val.toNat <<< 8 ||| idx.toNat <<< 4 ||| 0x6 ∧
    exec (.loadFb idx val) s = .next { s with fb := s.fb.write (cellIndex idx) val, result := 0x0001 } ∧
    (s.fb.write (cellIndex idx) val).read idx.toNat = some val ∧
    (∀ a, a ≠ idx.toNat → (s.fb.write (cellIndex idx) val).read a = s.fb.read a) ∧
    resultLevel 0x0001 = false ∧ resultAcked 0x0001 = false

/-- R18: every cell is unwritten at reset; LOAD_FB writes one cell and no other; no other command, TRANSMIT
included, changes the frame buffer. -/
def Obligations.OnlyLoadFbChangesTheFrameBuffer : Prop :=
  (∀ a, State.reset.fb.read a = none) ∧
  (∀ (i : Instr) (s t : State), exec i s = .next t → ∀ a, t.fb.read a ≠ s.fb.read a →
    ∃ idx val, i = .loadFb idx val ∧ a = idx.toNat ∧ t.fb.read a = some val) ∧
  (∀ (i : Instr) (s t : State), exec i s = .next t → (∀ idx val, i ≠ .loadFb idx val) → t.fb = s.fb)

/-- R78: a length of 0 or over 16 writes INVALID_LENGTH and does nothing else, whatever FB and the wire hold. -/
def Obligations.TransmitRefusesAnIllegalLength : Prop :=
  ∀ (n : BitVec 5) (s : State), n.toNat = 0 ∨ 16 < n.toNat →
    exec (.transmit n) s = .next { s with result := 0x0004, seq := .idle }

/-- R79: the lowest unwritten cell of the frame stops TRANSMIT, whatever the wire holds. -/
def Obligations.TransmitFaultsOnAnUnwrittenByte : Prop :=
  ∀ (n : BitVec 5) (s : State) (i : Nat), n.toNat ≤ 16 → i < n.toNat → s.fb.read i = none →
    (∀ k, k < i → (s.fb.read k).isSome) → exec (.transmit n) s = .fault (.unwrittenFrameByte i)

/-- R80 and R81: one sample decides; Low ends the command with BUS_BUSY, High starts the frame at once with 3700 µs
asserted and 800 µs released, and no second sample follows. That the level is taken off a list of the environment's
answers is the model's choice (assumption log 2). -/
def Obligations.TransmitChecksTheBusOnce : Prop :=
  ∀ (n : BitVec 5) (s : State), 1 ≤ n.toNat → n.toNat ≤ 16 → s.frameReady n.toNat →
    (s.lineLevel = .low → exec (.transmit n) s =
      .next { s.afterLineLevel with hist := s.hist ++ [.sample s.timeUs .low], result := 0x0002,
                                    seq := .idle }) ∧
    (s.lineLevel = .high → ∃ t rest, exec (.transmit n) s = .next t ∧
      t.hist = s.hist ++ ([.sample s.timeUs .high, .drive s.timeUs .asserted,
        .drive (s.timeUs + 3700) .released, .drive (s.timeUs + 4500) .asserted] ++ rest) ∧
      sampleCount rest = 0)

/-- R82 to R86: past its bus-free check, TRANSMIT sends the start bit and the blocks up to the first NACK, with
exactly these events, this duration, these questions to the environment and this RESULT, and changes nothing else. That
the answers are taken off lists is the model's choice (assumption log 2). -/
def Obligations.TransmitSendsTheFrame : Prop :=
  ∀ (n : BitVec 5) (s : State) (bytes : List Byte), 1 ≤ n.toNat → n.toNat ≤ 16 → bytes.length = n.toNat →
    (∀ i (h : i < bytes.length), s.fb.read i = some bytes[i]) → s.dir = .released → s.envLevelNow = .high →
    exec (.transmit n) s =
      .next { s with dir := .released, seq := .idle,
                     timeUs := s.timeUs + 4500 + blocksUs (s.sentBlocks bytes),
                     hist := s.hist ++ ([.sample s.timeUs .high] ++ pulseEvents s.timeUs 3700 ++
                       blocksEvents n.toNat 0 (s.timeUs + 4500) (s.sentBlocks bytes)),
                     levels := s.levels.tail, acks := s.acks.advance (s.sentBlocks bytes).length,
                     result := s.frameResult n.toNat }

/-- R86 with R90: a frame whose every block is acknowledged ends in OK, the wire released, after 4500 µs and for
each block 21600 µs and its ACK time, with 2 + 19n drives, one sample and n ACK waits. -/
def Obligations.AFrameAckedThroughoutSucceeds : Prop :=
  ∀ (n : BitVec 5) (s : State) (e : Nat → Fin 2001), 1 ≤ n.toNat → n.toNat ≤ 16 → s.frameReady n.toNat →
    s.dir = .released → s.envLevelNow = .high → (∀ i, i < n.toNat → s.envAckAt i = .ack (e i)) →
    ∃ t ev, exec (.transmit n) s = .next t ∧ t.result = 0x0001 ∧ t.dir = .released ∧ t.seq = .idle ∧
      t.timeUs = s.timeUs + 4500 + ((List.range n.toNat).map fun i => 21600 + (e i).val).sum ∧
      t.hist = s.hist ++ ev ∧ driveCount ev = 2 + 19 * n.toNat ∧ sampleCount ev = 1 ∧
      ackWaitCount ev = n.toNat

/-- R85 with R90: a NACK at block k ends the frame at once: RESULT names k, the wire is released, block k was sent
whole and nothing after its 2000 µs wait. -/
def Obligations.TheFirstNackEndsTheFrame : Prop :=
  ∀ (n : BitVec 5) (s : State) (e : Nat → Fin 2001) (k : Nat), n.toNat ≤ 16 → k < n.toNat →
    s.frameReady n.toNat → s.dir = .released → s.envLevelNow = .high →
    (∀ i, i < k → s.envAckAt i = .ack (e i)) → s.envAckAt k = .nack →
    ∃ t ev, exec (.transmit n) s = .next t ∧ t.result = (0x0003 : Word) ||| BitVec.ofNat 16 k <<< 4 ∧
      resultCode t.result = 3 ∧ (resultBlock t.result).toNat = k ∧ t.dir = .released ∧ t.seq = .idle ∧
      t.timeUs = s.timeUs + 4500 + ((List.range k).map fun i => 21600 + (e i).val).sum + 21600 + 2000 ∧
      t.hist = s.hist ++ ev ∧ driveCount ev = 2 + 19 * (k + 1) ∧ sampleCount ev = 1 ∧
      ackWaitCount ev = k + 1 ∧ ev.getLast? = some (.ackWait (t.timeUs - 2000) .nack)

/-- R40, R41 and R83: read back from the waveform alone, a transmission is the start bit and then, block by block in
index order, the byte's data bits most significant first and the EOM bit, up to the first block not acknowledged. -/
def Obligations.TheWaveformCarriesTheFrame : Prop :=
  ∀ (n : BitVec 5) (s : State) (bytes : List Byte), 1 ≤ n.toNat → n.toNat ≤ 16 → bytes.length = n.toNat →
    (∀ i (h : i < bytes.length), s.fb.read i = some bytes[i]) → s.dir = .released → s.envLevelNow = .high →
    ∃ t ev, exec (.transmit n) s = .next t ∧ t.hist = s.hist ++ ev ∧
      symbolsOf ev =
        (.start :: blockSymbols n.toNat 0 (bytes.take (blocksSent (s.nextAcks n.toNat)))).map some ∧
      (∀ i b, blockBits n.toNat i b = (List.range 8).map (fun j => b.getLsbD (7 - j)) ++ [decide (i + 1 = n.toNat)])

/-- R87: a TRANSMIT of one byte answers whether the header block was acknowledged; its EOM bit is 1. -/
def Obligations.APollTellsWhetherADeviceAnswers : Prop :=
  ∀ (s : State) (b : Byte), s.fb.read 0 = some b → s.dir = .released → s.envLevelNow = .high →
    ∃ t ev, exec (.transmit 1) s = .next t ∧ t.hist = s.hist ++ ev ∧
      (t.result = 0x0001 ↔ ∃ e, s.envAckAt 0 = .ack e) ∧ (t.result = 0x0003 ↔ s.envAckAt 0 = .nack) ∧
      symbolsOf ev = (Symbol.start :: ((List.range 8).map fun j => Symbol.bit (b.getLsbD (7 - j))) ++ [Symbol.bit true]).map some

/-- R88: TRANSMIT does not look at the bytes it sends: with other bytes in FB it takes the same time, asks the same
questions, gives the same RESULT and records as many events. -/
def Obligations.TransmitIsIndifferentToTheBytes : Prop :=
  ∀ (n : BitVec 5) (s t : State) (m : Memory), s.frameReady n.toNat →
    (∀ i, i < n.toNat → (m.read i).isSome) → exec (.transmit n) s = .next t →
    ∃ u, exec (.transmit n) { s with fb := m } = .next u ∧ u = { t with fb := m, hist := u.hist } ∧
      u.hist.length = t.hist.length

/-- R90 and R121: every command lasts at most 382100 µs, any but TRANSMIT at most 4500 µs, and the longest TRANSMIT
reaches its bound. -/
def Obligations.NoCommandLastsLongerThanTheLongestFrame : Prop :=
  (∀ (i : Instr) (s t : State), exec i s = .next t → s.timeUs ≤ t.timeUs ∧ t.timeUs ≤ s.timeUs + 382100 ∧
    ((∀ n, i ≠ .transmit n) → t.timeUs ≤ s.timeUs + 4500)) ∧
  (∃ s t : State, exec (.transmit 16) s = .next t ∧ t.result = 0x0001 ∧ t.timeUs = s.timeUs + 382100)

/-- R59: from the host's port, the words of `frame b0, …` run one after another are the source's transmitter on that
byte sequence (the host's moves are the model's, assumption log 1); a sequence of no byte or more than 16 is
INVALID_LENGTH. -/
def Obligations.TheFrameProgramIsTheTransmitter : Prop :=
  (∀ (bytes : List Byte) (s : State) (rest : List HostMove), 1 ≤ bytes.length → bytes.length ≤ 16 →
    s.seq = .idle → s.cmd = none →
    s.moves.scripted = ((frameInstrs (bytes.map BitVec.toNat)).map fun i => .issue (encode i)) ++ rest →
    core.run (2 * (bytes.length + 1)) s =
      .next (transmitSequence bytes
        { s with fb := bytes.zipIdx.foldl (fun m x => m.write x.2 x.1) s.fb,
                 moves := { s.moves with scripted := rest } })) ∧
  (∀ (bytes : List Byte) (s : State), bytes.length = 0 ∨ 16 < bytes.length →
    transmitSequence bytes s = { s with result := 0x0004, seq := .idle })

/-! ### Encoding -/

/-- R48, R49: decoding the encoding of an instruction gives it back, with every operand at every value. -/
def Obligations.DecodeOfEncodeIsTheInstruction : Prop :=
  ∀ i : Instr, decode (encode i) = .command i

/-- R56: a word has at most one meaning: a word that decodes to an instruction is that instruction's encoding. -/
def Obligations.EveryLegalWordIsAnEncoding : Prop :=
  ∀ (w : Word) (i : Instr), decode w = .command i → w = encode i

/-- R49: a word selects a row's command exactly when it agrees with the row's match under the row's mask, and no word
agrees with two rows. -/
def Obligations.MatchAndMaskSelectTheCommand : Prop :=
  (∀ (w : Word) (i : Instr), w &&& rowMask i = rowMatch i ↔
    ∃ j, decode w = .command j ∧ opcodeOf j = opcodeOf i) ∧
  (∀ (w : Word) (i j : Instr), w &&& rowMask i = rowMatch i → w &&& rowMask j = rowMatch j →
    opcodeOf i = opcodeOf j)

/-- R55: decode, said with numbers, and the count of the words that select a command. -/
def Obligations.DecodeIsTheFunctionOfR55 : Prop :=
  (∀ (w : Word), (decode w).instr? =
    if w.toNat % 16 = 0 ∧ w.toNat / 16 = 0 then some .release
    else if w.toNat % 16 = 1 ∧ w.toNat / 16 = 0 then some .assert
    else if w.toNat % 16 = 2 ∧ w.toNat / 16 = 0 then some .sample
    else if w.toNat % 16 = 3 ∧ w.toNat / 16 = 0 then some .sendStart
    else if w.toNat % 16 = 4 ∧ w.toNat / 32 = 0 then some (.sendBit (BitVec.ofNat 1 (w.toNat / 16 % 2)))
    else if w.toNat % 16 = 5 ∧ w.toNat / 16 = 0 then some .waitAck
    else if w.toNat % 16 = 6 then
      some (.loadFb (BitVec.ofNat 4 (w.toNat / 16 % 16)) (BitVec.ofNat 8 (w.toNat / 256)))
    else if w.toNat % 16 = 7 ∧ w.toNat / 512 = 0 then
      some (.transmit (BitVec.ofNat 5 (w.toNat / 16 % 32)))
    else none) ∧
  ((List.range 65536).filter fun k => (decode (BitVec.ofNat 16 k)).instr?.isSome).length = 4135 ∧
  (∀ (w : Word) (s : State), (decode w).instr? = none → runWord w s = .next { s with result := 0x0005 })

/-- R53, R54, R95: exactly the words with a reserved OP or a reserved-zero bit at 1 are Illegal, and such a word
writes ILLEGAL_COMMAND and changes nothing else. -/
def Obligations.IllegalWordsOnlyWriteTheResult : Prop :=
  (∀ w : Word, (∃ why, decode w = .illegal why) ↔
    8 ≤ w.toNat % 16 ∨ (w.toNat % 16 ∈ [0, 1, 2, 3, 5] ∧ 16 ≤ w.toNat) ∨
      (w.toNat % 16 = 4 ∧ 32 ≤ w.toNat) ∨ (w.toNat % 16 = 7 ∧ 512 ≤ w.toNat)) ∧
  (∀ (w : Word) (why : IllegalReason) (s : State), decode w = .illegal why →
    runWord w s = .next { s with result := 0x0005 }) ∧
  resultCode 0x0005 = 5

/-- V-DEC: words written out from the table of R49, what they decode to, and two that select no command. -/
def Obligations.WordsOfEveryCommandDecode : Prop :=
  decode 0b0000000000000000 = .command .release ∧ decode 0b0000000000000001 = .command .assert ∧
  decode 0b0000000000000010 = .command .sample ∧ decode 0b0000000000000011 = .command .sendStart ∧
  decode 0b0000000000010100 = .command (.sendBit 1) ∧ decode 0b0000000000000101 = .command .waitAck ∧
  decode 0b1000111100010110 = .command (.loadFb 1 0x8F) ∧ decode 0b0000000111110111 = .command (.transmit 31) ∧
  (decode 0b0000000000001000).instr? = none ∧ (decode 0b0000001000000111).instr? = none

/-- R57: what each line of assembly names, and that an operand outside its range names no word. -/
def Obligations.AssemblerWordsAndRefusals : Prop :=
  (assemble .release = some [0x0000] ∧ assemble .assert = some [0x0001] ∧ assemble .sample = some [0x0002] ∧
    assemble .sendStart = some [0x0003] ∧ assemble .waitAck = some [0x0005]) ∧
  (∀ v, assemble (.sendBit v) = if v ≤ 1 then some [BitVec.ofNat 16 (v <<< 4 ||| 0x4)] else none) ∧
  (∀ idx val, assemble (.loadFb idx val) =
    if idx ≤ 15 ∧ val ≤ 255 then some [BitVec.ofNat 16 (val <<< 8 ||| idx <<< 4 ||| 0x6)] else none) ∧
  (∀ n, assemble (.transmit n) = if n ≤ 31 then some [BitVec.ofNat 16 (n <<< 4 ||| 0x7)] else none) ∧
  (∀ w, assemble (.rawWord w) = if w ≤ 0xFFFF then some [BitVec.ofNat 16 w] else none)

/-- R58: the expansions of send_byte, frame and poll. -/
def Obligations.PseudoInstructionsExpand : Prop :=
  (∀ b, b ≤ 255 → assemble (.sendByte b) =
    some ([7, 6, 5, 4, 3, 2, 1, 0].map fun k => if b.testBit k then 0x0014 else 0x0004)) ∧
  (∀ bs : List Nat, 1 ≤ bs.length → bs.length ≤ 16 → (∀ b ∈ bs, b ≤ 255) → assemble (.frame bs) =
    some (bs.zipIdx.map (fun x => BitVec.ofNat 16 (x.1 <<< 8 ||| x.2 <<< 4 ||| 0x6)) ++
      [BitVec.ofNat 16 (bs.length <<< 4 ||| 0x7)])) ∧
  (∀ initiator destination, initiator ≤ 15 → destination ≤ 15 →
    assemble (.poll initiator destination) = assemble (.frame [initiator <<< 4 ||| destination]) ∧
    assemble (.poll initiator destination) =
      some [BitVec.ofNat 16 ((initiator <<< 4 ||| destination) <<< 8 ||| 0x6), 0x0017])

/-- R42: a header byte's high nibble is the initiator and its low nibble the destination. -/
def Obligations.HeaderNibblesAreInitiatorAndDestination : Prop :=
  ∀ initiator destination : BitVec 4,
    headerInitiator (BitVec.ofNat 8 (headerByte initiator.toNat destination.toNat)) = initiator ∧
    headerDestination (BitVec.ofNat 8 (headerByte initiator.toNat destination.toNat)) = destination

/-! ### Every command -/

/-- A step runs the decoded instruction (R27, R55; that the word waits on CMD is assumption log 1): with a word on CMD
and SEQ idle, step takes the word off CMD and runs what it decodes to, an Illegal word as R95 says; a word placed for
the next step is that word. -/
def Obligations.AStepRunsTheDecodedInstruction : Prop :=
  (∀ (s : State) (w : Word) (i : Instr), s.seq = .idle → s.cmd = some w → decode w = .command i →
    step s = exec i { s with cmd := none }) ∧
  (∀ (s : State) (w : Word) (why : IllegalReason), s.seq = .idle → s.cmd = some w → decode w = .illegal why →
    step s = .next { s with cmd := none, result := 0x0005 }) ∧
  (∀ (s : State) (w : Word) (i : Instr), decode w = .command i →
    step (s.withFetchWord 16 w.toNat) = exec i { s with cmd := none, seq := .idle })

/-- R97, R122: every command ends: it answers a next state, or it is a TRANSMIT of a legal length with an unwritten
cell; no command is refused. -/
def Obligations.EveryCommandEnds : Prop :=
  ∀ (i : Instr) (s : State), (∃ t, exec i s = .next t) ∨
    ∃ n k, i = .transmit n ∧ 1 ≤ n.toNat ∧ n.toNat ≤ 16 ∧ k < n.toNat ∧ s.fb.read k = none ∧
      exec i s = .fault (.unwrittenFrameByte k)

/-- R92, R93, R94: each error code is written by TRANSMIT alone, exactly in the case its rule names, with the value
and the sample its rule names; no command writes NONE or ILLEGAL_COMMAND. -/
def Obligations.ErrorCodesNameTheirCauses : Prop :=
  ∀ (i : Instr) (s t : State), exec i s = .next t →
    resultCode t.result ≠ 0 ∧ resultCode t.result ≠ 5 ∧
    (resultCode t.result = 2 ↔ ∃ n, i = .transmit n ∧ 1 ≤ n.toNat ∧ n.toNat ≤ 16 ∧ s.lineLevel = .low) ∧
    (resultCode t.result = 2 → t.result = 0x0002 ∧ t.hist = s.hist ++ [.sample s.timeUs .low]) ∧
    (resultCode t.result = 4 ↔ ∃ n, i = .transmit n ∧ (n.toNat = 0 ∨ 16 < n.toNat)) ∧
    (resultCode t.result = 4 → t.result = 0x0004 ∧ t.hist = s.hist) ∧
    (∀ k, (resultCode t.result = 3 ∧ (resultBlock t.result).toNat = k) ↔
      ∃ n, i = .transmit n ∧ n.toNat ≤ 16 ∧ k < n.toNat ∧ s.lineLevel = .high ∧ s.envAckAt k = .nack ∧
        ∀ j, j < k → s.envAckAt j ≠ .nack) ∧
    (resultCode t.result = 3 → t.result = (0x0003 : Word) ||| (resultBlock t.result).setWidth 16 <<< 4)

/-- R98: what each error leaves behind, as its table lists it: an Illegal word or an illegal length changes nothing but
RESULT and SEQ, BUS_BUSY adds one sample, and NOT_ACKNOWLEDGED at block k leaves the wire released after the time and the
events of k + 1 blocks. -/
def Obligations.WhatAnErrorLeavesBehind : Prop :=
  ∀ (w : Word) (s t : State), runWord w s = .next t →
    (resultCode t.result = 5 ∨ resultCode t.result = 4 → t = { s with result := t.result, seq := t.seq }) ∧
    (resultCode t.result = 2 →
      t = { s with result := t.result, seq := t.seq, levels := t.levels,
                   hist := s.hist ++ [.sample s.timeUs .low] }) ∧
    (resultCode t.result = 3 → ∃ k ev, (resultBlock t.result).toNat = k ∧ t.dir = .released ∧ t.fb = s.fb ∧
      t.timeUs = s.timeUs + 4500 + ((List.range k).map fun i => 21600 + ackWaitUs (s.envAckAt i)).sum +
        21600 + 2000 ∧
      t.hist = s.hist ++ ev ∧ driveCount ev = 2 + 19 * (k + 1) ∧ sampleCount ev = 1 ∧ ackWaitCount ev = k + 1)

/-- R96: the order in which errors are found: an Illegal word, then the length, then the lowest unwritten byte, then
the bus, then the first block not acknowledged. -/
def Obligations.ErrorsAreFoundInOrder : Prop :=
  ∀ (w : Word) (s : State),
    ((∃ why, decode w = .illegal why) → ∃ t, runWord w s = .next t ∧ t.result = 0x0005) ∧
    (∀ n, decode w = .command (.transmit n) →
      (n.toNat = 0 ∨ 16 < n.toNat → ∃ t, runWord w s = .next t ∧ t.result = 0x0004) ∧
      (1 ≤ n.toNat → n.toNat ≤ 16 →
        (∀ i, i < n.toNat → s.fb.read i = none → (∀ k, k < i → (s.fb.read k).isSome) →
          runWord w s = .fault (.unwrittenFrameByte i)) ∧
        (s.frameReady n.toNat → s.lineLevel = .low → ∃ t, runWord w s = .next t ∧ t.result = 0x0002) ∧
        (s.frameReady n.toNat → s.lineLevel = .high → ∀ k, k < n.toNat → s.envAckAt k = .nack →
          (∀ j, j < k → s.envAckAt j ≠ .nack) →
          ∃ t, runWord w s = .next t ∧ t.result = (0x0003 : Word) ||| BitVec.ofNat 16 k <<< 4)))

/-- R20, R31: RESULT is a function of the last command alone; whatever the word, the old RESULT has no effect on
anything, the new one is a legal value, LEVEL is set only by SAMPLE, to the level read, and ACKED only by WAIT_ACK, on
an ACK; reset sets 0. -/
def Obligations.ResultIsOfTheLastCommandAlone : Prop :=
  (∀ (w : Word) (s : State) (r : Word), runWord w { s with result := r } = runWord w s) ∧
  (∀ (w : Word) (s t : State), runWord w s = .next t → resultLegal t.result = true ∧
    (resultLevel t.result = true → decode w = .command .sample) ∧
    (resultAcked t.result = true → decode w = .command .waitAck)) ∧
  (∀ s t : State, exec .sample s = .next t → (resultLevel t.result = true ↔ s.lineLevel = .high)) ∧
  (∀ s t : State, exec .waitAck s = .next t → (resultAcked t.result = true ↔ ∃ e, s.ackOutcome = .ack e)) ∧
  (∀ s : State, State.reset.result = 0x0000 ∧ s.resetBlock.result = 0x0000)

/-- R115: how long each command takes, and how a start bit and a data bit divide it. -/
def Obligations.DurationOfEachCommand : Prop :=
  (∀ (i : Instr) (s t : State), exec i s = .next t →
    match i with
    | .release | .assert | .sample | .loadFb _ _ => t.timeUs = s.timeUs
    | .sendStart => t.timeUs = s.timeUs + 4500
    | .sendBit _ => t.timeUs = s.timeUs + 2400
    | .waitAck => t.timeUs = s.timeUs +
        match s.ackOutcome with
        | .ack e => e.val
        | .nack => 2000
    | .transmit n =>
      if 1 ≤ n.toNat ∧ n.toNat ≤ 16 ∧ s.lineLevel = .high then
        ∀ bytes : List Byte, bytes.length = n.toNat → t.timeUs = s.timeUs + 4500 + blocksUs (s.sentBlocks bytes)
      else t.timeUs = s.timeUs) ∧
  (∀ s t : State, exec .sendStart s = .next t → t.hist = s.hist ++ pulseEvents s.timeUs 3700) ∧
  (∀ (v : BitVec 1) (s t : State), exec (.sendBit v) s = .next t →
    t.hist = s.hist ++ pulseEvents s.timeUs (if v = 1 then 600 else 1500)) ∧
  (∀ (w : Word) (why : IllegalReason) (s t : State), decode w = .illegal why → runWord w s = .next t →
    t.timeUs = s.timeUs)

/-- R15: DIR has two values, 0 and 1; every write of it is a Drive event with the time and value of the write, a
redundant write too; only RELEASE, ASSERT, SEND_START, SEND_BIT and TRANSMIT write it. -/
def Obligations.EveryWriteOfDirIsRecorded : Prop :=
  (dirBit .released = 0 ∧ dirBit .asserted = 1) ∧
  (∀ (i : Instr) (s t : State), exec i s = .next t →
    ∃ ev, t.hist = s.hist ++ ev ∧ t.dir = ((drivesOf ev).getLast?.map Prod.snd).getD s.dir ∧
      (∀ x ∈ drivesOf ev, s.timeUs ≤ x.1 ∧ x.1 ≤ t.timeUs) ∧
      (drivesOf ev ≠ [] → i = .release ∨ i = .assert ∨ i = .sendStart ∨ (∃ v, i = .sendBit v) ∨
        ∃ n, i = .transmit n) ∧
      (i = .release ∨ i = .assert → driveCount ev = 1))

/-- R38: what the commands leave alone: SAMPLE and LOAD_FB do not touch the wire; LOAD_FB twice is LOAD_FB once;
ASSERT and RELEASE twice are once on the wire, with one more event. -/
def Obligations.SideEffectsAndIdempotence : Prop :=
  (∀ (i : Instr) (s t : State), (i = .sample ∨ ∃ idx val, i = .loadFb idx val) → exec i s = .next t →
    t.dir = s.dir ∧ ∀ τ, driveAt t.hist τ = driveAt s.hist τ) ∧
  (∀ (idx : BitVec 4) (val : BitVec 8) (s t : State), exec (.loadFb idx val) s = .next t →
    exec (.loadFb idx val) t = .next t) ∧
  (∀ (i : Instr) (s t u : State), i = .release ∨ i = .assert → exec i s = .next t → exec i t = .next u →
    u.dir = t.dir ∧ (∀ τ, driveAt u.hist τ = driveAt t.hist τ) ∧ u.hist.length = t.hist.length + 1)

/-! ### Frames -/

/-- What the commands that store no byte leave unchanged: RELEASE, ASSERT, SAMPLE, SEND_START, SEND_BIT and WAIT_ACK
change no cell of FB, nor CMD, nor SEQ; only SAMPLE asks for a level and only WAIT_ACK for an acknowledgement; the first
three let no time pass; SAMPLE and WAIT_ACK do not write DIR; the history only grows. The environment's and the host's
lists are the model's (assumption logs 1 and 2). -/
def Obligations.FrameOfTheWireCommands : Prop :=
  ∀ (i : Instr) (s t : State),
    (i = .release ∨ i = .assert ∨ i = .sample ∨ i = .sendStart ∨ (∃ v, i = .sendBit v) ∨ i = .waitAck) →
    exec i s = .next t →
    (∀ a, t.fb.read a = s.fb.read a) ∧ t.cmd = s.cmd ∧ t.seq = s.seq ∧ t.moves = s.moves ∧
    (i ≠ .sample → t.levels = s.levels) ∧ (i ≠ .waitAck → t.acks = s.acks) ∧
    (i = .release ∨ i = .assert ∨ i = .sample → t.timeUs = s.timeUs) ∧
    (i = .sample ∨ i = .waitAck → t.dir = s.dir) ∧ s.hist <+: t.hist

/-- What LOAD_FB leaves unchanged: everything but RESULT and the one cell its IDX names. -/
def Obligations.FrameOfLoadFb : Prop :=
  ∀ (idx : BitVec 4) (val : BitVec 8) (s t : State), exec (.loadFb idx val) s = .next t →
    (∀ a, a ≠ cellIndex idx → t.fb.read a = s.fb.read a) ∧
    t = { s with fb := t.fb, result := t.result }

/-- What TRANSMIT leaves unchanged: every cell of FB, CMD and the host's moves; it asks for at most one level and for
at most one acknowledgement a byte; SEQ ends IDLE; DIR is as before or Released; the history only grows. The
environment's and the host's lists are the model's (assumption logs 1 and 2). -/
def Obligations.FrameOfTransmit : Prop :=
  ∀ (n : BitVec 5) (s t : State), exec (.transmit n) s = .next t →
    (∀ a, t.fb.read a = s.fb.read a) ∧ t.cmd = s.cmd ∧ t.moves = s.moves ∧ t.seq = .idle ∧
    (t.levels = s.levels ∨ t.levels = s.levels.tail) ∧ (∃ k, k ≤ n.toNat ∧ t.acks = s.acks.advance k) ∧
    (t.dir = s.dir ∨ t.dir = .released) ∧ s.hist <+: t.hist

/-! ### The machine between commands, and its invariant -/

/-- R28 (the list of moves is the model's, assumption logs 1 and 3): an idle step lets time pass, changes nothing else,
and the wire keeps the drive DIR gives it; where no move is listed the host idles for a free time. -/
def Obligations.AnIdleStepOnlyLetsTimePass : Prop :=
  (∀ (s : State) (d : Nat), s.seq = .idle → s.cmd = none → s.nextMove = .idle d →
    step s = .next { s with timeUs := s.timeUs + d, moves := s.moves.tail }) ∧
  (∀ (s : State) (d : Nat), s.Inv → ∀ τ, s.timeUs ≤ τ → τ ≤ s.timeUs + d →
    driveAt (s.idleStep d).hist τ = s.dir) ∧
  (∀ s : State, s.moves.scripted = [] → s.nextMove = .idle (idleUs s.moves.drawn))

/-- R21, R38 in the model's form (assumption log 1): issuing a word only puts it on CMD, and a read of RESULT changes
nothing; a word is not kept once its command has ended. -/
def Obligations.TheHostPortHoldsOneWord : Prop :=
  (∀ (s : State) (w : Word), s.seq = .idle → s.cmd = none → s.nextMove = .issue w →
    step s = .next { s with cmd := some w, moves := s.moves.tail }) ∧
  (∀ s : State, s.seq = .idle → s.cmd = none → s.nextMove = .readResult →
    step s = .next { s with moves := s.moves.tail }) ∧
  (∀ (s t : State) (w : Word), s.cmd = some w → step s = .next t → t.cmd = none)

/-- R23, R24: but for a reset, a step lets TIME_US only grow and only appends to the history, each new event dated
between the old time and the new. -/
def Obligations.TimeAndHistoryOnlyGrow : Prop :=
  ∀ s t : State, step s = .next t → (s.cmd = none → s.nextMove ≠ .reset) →
    s.timeUs ≤ t.timeUs ∧ ∃ ev, t.hist = s.hist ++ ev ∧ ∀ e ∈ ev, s.timeUs ≤ e.time ∧ e.time ≤ t.timeUs

/-- The invariant holds at reset (R32, R107). -/
def Obligations.ResetMeetsTheInvariant : Prop := State.reset.Inv

/-- The invariant is kept by every step, from every state that meets it: FB stays in canonical form, SEQ is IDLE
whenever the host can act (R22), RESULT stays a legal value (R19), the history stays in order of time (R24), and DIR is
the drive the waveform gives for now (R25). -/
def Obligations.EveryStepKeepsTheInvariant : Prop :=
  ∀ s t : State, s.Inv → step s = .next t → t.Inv

/-- R97: from a state that meets the invariant, only two things end a run: a TRANSMIT over an unwritten cell, and a
reset that cuts a command (assumption log 4); nothing is refused. -/
def Obligations.OnlyTheTwoModelFaultsEndARun : Prop :=
  ∀ s : State, s.Inv → (∃ t, step s = .next t) ∨
    (∃ w n k, s.cmd = some w ∧ decode w = .command (.transmit n) ∧ 1 ≤ n.toNat ∧ n.toNat ≤ 16 ∧ k < n.toNat ∧
      s.fb.read k = none ∧ step s = .fault (.unwrittenFrameByte k)) ∨
    (∃ w, s.cmd = none ∧ s.nextMove = .issueCutByReset w ∧ step s = .fault .resetDuringCommand)

/-! ### Realized waveforms -/

/-- R116, R117 and R67: the phases of each command, as the spans of time it is made of (spans are the model's form of
them, assumption log 7): a start bit or data bit is one pulse, an ACK wait one span, and TRANSMIT past its bus-free check
the start bit and the blocks it sends. -/
def Obligations.EveryPhaseOfACommandIsASpan : Prop :=
  ∀ (i : Instr) (s t : State), exec i s = .next t →
    match i with
    | .release => spansOfCommand s t = [.drive .released]
    | .assert => spansOfCommand s t = [.drive .asserted]
    | .sample | .loadFb _ _ => spansOfCommand s t = []
    | .sendStart => spansOfCommand s t = [.pulse 3700 800]
    | .sendBit v => spansOfCommand s t = [.pulse (if v = 1 then 600 else 1500) (if v = 1 then 1800 else 900)]
    | .waitAck => spansOfCommand s t = [.ackWait (ackWaitUs s.ackOutcome)]
    | .transmit n =>
      if 1 ≤ n.toNat ∧ n.toNat ≤ 16 ∧ s.lineLevel = .high then
        ∀ bytes : List Byte, bytes.length = n.toNat → (∀ i (h : i < bytes.length), s.fb.read i = some bytes[i]) →
          spansOfCommand s t = .pulse 3700 800 :: blocksSpans n.toNat 0 (s.sentBlocks bytes)
      else spansOfCommand s t = []

/-- R116 (the form of the band is the model's, assumption log 7): what a realization of SEND_START, SEND_BIT and WAIT_ACK
puts on the wire: two drives, each phase and the whole bit within the tolerance, and an ACK wait within it too. -/
def Obligations.TheBandOfEachPhase : Prop :=
  (∀ (tol r low high : Nat) (i : Instr) (s t : State) (real : List Span),
    ((i = .sendStart ∧ low = 3700 ∧ high = 800) ∨ (i = .sendBit 0 ∧ low = 1500 ∧ high = 900) ∨
      (i = .sendBit 1 ∧ low = 600 ∧ high = 1800)) →
    exec i s = .next t → realizes tol (spansOfCommand s t) real = true →
    ∃ low' high', drivesOf (waveEvents r real) = [(r, .asserted), (r + low', .released)] ∧
      spansUs real = low' + high' ∧
      low ≤ low' + tol ∧ low' ≤ low + tol ∧ high ≤ high' + tol ∧ high' ≤ high + tol ∧
      low + high ≤ low' + high' + tol ∧ low' + high' ≤ low + high + tol) ∧
  (∀ (tol r : Nat) (s t : State) (real : List Span), exec .waitAck s = .next t →
    realizes tol (spansOfCommand s t) real = true →
    drivesOf (waveEvents r real) = [] ∧ t.timeUs - s.timeUs ≤ spansUs real + tol ∧
      spansUs real ≤ t.timeUs - s.timeUs + tol)

/-- R25 (spans are the model's, assumption log 7): the spans of a run are its history: every step keeps their waveform's
drives equal to the history's, and so its drive at every time, and their length equal to TIME_US; at reset there are
none. -/
def Obligations.TheSpansOfARunAreItsHistory : Prop :=
  State.reset.alignedWith [] ∧
  ∀ (s t : State) (before : List Span), s.alignedWith before → step s = .next t →
    t.alignedWith (stepSpans s t before) ∧
      ∀ τ, driveAt t.hist τ = driveAt (waveEvents 0 (stepSpans s t before)) τ

/-- R25 and R116 (realizations are the model's, assumption log 7; TIMING_TOL_US is open, assumption log 8): the history's
drives are one waveform a run may show, and every one it may show has the same drives in the same order, each off its
nominal time by at most TIMING_TOL_US for each span of the run. -/
def Obligations.ObservedWaveformsAreTheHistoryWithinTheBand : Prop :=
  ∀ (k : Nat) (s t : State) (before : List Span), s.alignedWith before → core.run k s = .next t →
    (∃ h, observedWave k s before h ∧ drivesOf h = drivesOf t.hist) ∧
    ∀ h, observedWave k s before h →
      (drivesOf h).map Prod.snd = (drivesOf t.hist).map Prod.snd ∧
      ∀ x ∈ (drivesOf h).zip (drivesOf t.hist),
        x.2.1 ≤ x.1.1 + timingTolUs * (runSpans k s before).length ∧
        x.1.1 ≤ x.2.1 + timingTolUs * (runSpans k s before).length

/-- R116 with R40, R41 and R73 (realizations are the model's, assumption log 7): below 450 µs of tolerance, every
realization of a transmission still carries the frame: each low pulse, read with the tolerance, is the symbol sent. -/
def Obligations.ARealizedFrameReadsBack : Prop :=
  ∀ (n : BitVec 5) (s : State) (bytes : List Byte), 1 ≤ n.toNat → n.toNat ≤ 16 → bytes.length = n.toNat →
    (∀ i (h : i < bytes.length), s.fb.read i = some bytes[i]) → s.dir = .released → s.envLevelNow = .high →
    ∃ t, exec (.transmit n) s = .next t ∧
      ∀ (tol r : Nat) (real : List Span), tol < 450 → realizes tol (spansOfCommand s t) real = true →
        (lowPulses (waveEvents r real)).map (fun p => symbolNear tol p.2) =
          (.start :: blockSymbols n.toNat 0 (bytes.take (blocksSent (s.nextAcks n.toNat)))).map some
end

