-- ==== Sys2Proof/Laws/Decode.lean ====
section
/-! SUPPORT. Fields and encodings as numbers (30_encoding.md R48, R50), so that proofs about words are arithmetic. -/

namespace Sys2Proof

/-- A field of a word as a number (R50). -/
theorem wordField_toNat (w : Word) (hi lo : Nat) :
    (wordField w hi lo).toNat = w.toNat / 2 ^ lo % 2 ^ (hi - lo + 1) := by
  rw [wordField, BitVec.extractLsb_toNat, Nat.shiftRight_eq_div_pow]

/-- The opcode of a word as a number (R47). -/
theorem opField_eq (w : Word) : opField w = w.toNat % 16 := by
  rw [opField, wordField_toNat, Nat.pow_zero, Nat.div_one]
  rfl

/-- Concatenation as a number: the high part counts in units of the low part's range. -/
theorem toNat_append_eq {m n : Nat} (x : BitVec m) (y : BitVec n) : (x ++ y).toNat = x.toNat * 2 ^ n + y.toNat := by
  rw [BitVec.toNat_append, ← Nat.shiftLeft_add_eq_or_of_lt y.isLt, Nat.shiftLeft_eq]

theorem encode_sendBit_toNat (v : BitVec 1) : (encode (.sendBit v)).toNat = v.toNat * 16 + 4 := by
  rw [encode, toNat_append_eq, toNat_append_eq, opcodeOf]
  simp

theorem encode_loadFb_toNat (idx : BitVec 4) (val : BitVec 8) :
    (encode (.loadFb idx val)).toNat = val.toNat * 256 + idx.toNat * 16 + 6 := by
  rw [encode, toNat_append_eq, toNat_append_eq, opcodeOf]
  simp
  omega

theorem encode_transmit_toNat (n : BitVec 5) : (encode (.transmit n)).toNat = n.toNat * 16 + 7 := by
  rw [encode, toNat_append_eq, toNat_append_eq, opcodeOf]
  simp

/-- A word whose reserved-zero bits start at `lo` passes their check exactly when it is below `2 ^ lo` (R53). -/
theorem needZeroFrom_eq (w : Word) (lo : Nat) (h : lo ≤ 15) (i : Instr) :
    needZeroFrom w lo i = if w.toNat < 2 ^ lo then .command i else .illegal .reservedBitSet := by
  have hw := w.isLt
  have key : wordField w 15 lo = 0 ↔ w.toNat < 2 ^ lo := by
    have hlt : w.toNat / 2 ^ lo < 2 ^ (15 - lo + 1) := by
      rw [Nat.div_lt_iff_lt_mul (Nat.two_pow_pos lo), ← Nat.pow_add, show 15 - lo + 1 + lo = 16 by omega]
      exact hw
    rw [← BitVec.toNat_inj, wordField_toNat, Nat.mod_eq_of_lt hlt]
    simp [Nat.div_eq_zero_iff]
  simp only [needZeroFrom, key]

end Sys2Proof
end

