-- ==== Sys2Proof/Laws/Flags.lean ====
section
/-! SUPPORT. The RESULT values and their fields (10_state.md R19). -/

namespace Sys2Proof.Machine

open Sys2Proof.Config

@[simp] theorem resultSample_high : resultSample .high = 0x0101 := rfl

@[simp] theorem resultSample_low : resultSample .low = 0x0001 := rfl

@[simp] theorem resultWaitAck_ack (e : Fin (ackWindowUs + 1)) : resultWaitAck (.ack e) = 0x0201 := by
  rw [resultWaitAck, ackedBit]
  rfl

@[simp] theorem resultWaitAck_nack : resultWaitAck .nack = 0x0001 := rfl

/-- The fields of a NOT_ACKNOWLEDGED result: its code, the block, and nothing else (R85). -/
theorem resultNotAcknowledged_fields (i : Nat) (hi : i < 16) :
    resultCode (resultNotAcknowledged i) = 3 ∧ (resultBlock (resultNotAcknowledged i)).toNat = i ∧
      resultLevel (resultNotAcknowledged i) = false ∧ resultAcked (resultNotAcknowledged i) = false ∧
      resultLegal (resultNotAcknowledged i) = true := by
  have h : ∀ j : Fin 16, resultCode (resultNotAcknowledged j) = 3 ∧
      (resultBlock (resultNotAcknowledged j)).toNat = j ∧ resultLevel (resultNotAcknowledged j) = false ∧
      resultAcked (resultNotAcknowledged j) = false ∧ resultLegal (resultNotAcknowledged j) = true := by decide
  exact h ⟨i, hi⟩

/-- The fixed values a command writes are legal. -/
theorem resultLegal_fixed : resultLegal resultOk = true ∧ resultLegal resultBusBusy = true ∧
    resultLegal resultInvalidLength = true ∧ resultLegal resultIllegalCommand = true ∧
    (∀ lvl, resultLegal (resultSample lvl) = true) ∧ ∀ o, resultLegal (resultWaitAck o) = true := by
  refine ⟨by decide, by decide, by decide, by decide, fun lvl => ?_, fun o => ?_⟩
  · cases lvl <;> decide
  · cases o
    · rw [resultWaitAck_ack]
      decide
    · decide

end Sys2Proof.Machine
end

