-- ==== Sys2Proof/Laws/Memory.lean ====
section
/-! SUPPORT. The laws of the frame buffer: a read after a write, the canonical form, and reading a frame. -/

namespace Sys2Proof.Machine

namespace Memory

variable (m : Memory) (a c : Nat) (v : Byte)

theorem read_write_same : (m.write a v).read a = some v := by
  induction m with
  | nil => simp [write, read]
  | cons x m ih =>
    obtain ⟨k, u⟩ := x
    simp only [write]
    split
    · simp [read]
    · split
      · simp [read]
      · rename_i h
        simpa [read, Ne.symm h] using ih

theorem read_write_other (h : c ≠ a) : (m.write a v).read c = m.read c := by
  induction m with
  | nil => simp [write, read, Ne.symm h]
  | cons x m ih =>
    obtain ⟨k, u⟩ := x
    simp only [write]
    split
    · simp [read, Ne.symm h]
    · split
      · rename_i hk
        simp [read, ← hk, Ne.symm h]
      · simp [read, ih]

/-- Reading any cell after a write. -/
theorem read_write : (m.write a v).read c = if c = a then some v else m.read c := by
  split
  · rename_i h
    rw [h, read_write_same]
  · exact read_write_other m a c v ‹_›

theorem wfFrom_write {m : Memory} {lo : Nat} (hm : m.wfFrom lo = true) (hlo : lo ≤ a) (ha : a < 16) :
    (m.write a v).wfFrom lo = true := by
  induction m generalizing lo with
  | nil => simp [write, wfFrom, hlo, ha]
  | cons x m ih =>
    obtain ⟨k, u⟩ := x
    simp only [wfFrom, Bool.and_eq_true, decide_eq_true_eq] at hm
    obtain ⟨⟨hk, hk16⟩, hrest⟩ := hm
    simp only [write]
    split
    · simp only [wfFrom, Bool.and_eq_true, decide_eq_true_eq]
      exact ⟨⟨hlo, ha⟩, ⟨by omega, hk16⟩, hrest⟩
    · split
      · rename_i h
        subst h
        simp only [wfFrom, Bool.and_eq_true, decide_eq_true_eq]
        exact ⟨⟨hlo, ha⟩, hrest⟩
      · simp only [wfFrom, Bool.and_eq_true, decide_eq_true_eq]
        exact ⟨⟨hk, hk16⟩, ih hrest (by omega)⟩

/-- A write to a cell of the buffer keeps the canonical form. -/
theorem wf_write {m : Memory} (hm : m.wf = true) (ha : a < 16) : (m.write a v).wf = true :=
  wfFrom_write a v hm (Nat.zero_le a) ha

/-- A frame can be read exactly when each of its cells is written, and then it is their bytes in order. -/
theorem readFrom_ok {m : Memory} {i n : Nat} {bs : List Byte} :
    m.readFrom i n = .ok bs ↔ bs.length = n ∧ ∀ k (hk : k < bs.length), m.read (i + k) = some bs[k] := by
  induction n generalizing i bs with
  | zero =>
    cases bs <;> simp [readFrom]
  | succ n ih =>
    cases hr : m.read i with
    | none =>
      simp only [readFrom, hr]
      constructor
      · intro h
        cases h
      · rintro ⟨hl, h⟩
        have := h 0 (by omega)
        simp [hr] at this
    | some b =>
      simp only [readFrom, hr]
      cases hrest : m.readFrom (i + 1) n with
      | error j =>
        simp only [reduceCtorEq, false_iff]
        rintro ⟨hl, h⟩
        cases bs with
        | nil => simp at hl
        | cons c cs =>
          have : m.readFrom (i + 1) n = .ok cs :=
            ih.2 ⟨by simpa using hl, fun k hk => by
              have := h (k + 1) (by simpa using hk)
              simpa [Nat.add_assoc, Nat.add_comm 1 k] using this⟩
          rw [hrest] at this
          cases this
      | ok cs =>
        have hcs := ih.1 hrest
        constructor
        · intro h
          cases h
          refine ⟨by simp [hcs.1], fun k hk => ?_⟩
          cases k with
          | zero => simpa using hr
          | succ k =>
            have := hcs.2 k (by simpa using hk)
            simpa [Nat.add_assoc, Nat.add_comm 1 k] using this
        · rintro ⟨hl, h⟩
          cases bs with
          | nil => simp at hl
          | cons c ds =>
            have h0 := h 0 (by simp)
            have hds : m.readFrom (i + 1) n = .ok ds :=
              ih.2 ⟨by simpa using hl, fun k hk => by
                have := h (k + 1) (by simpa using hk)
                simpa [Nat.add_assoc, Nat.add_comm 1 k] using this⟩
            rw [hrest] at hds
            cases hds
            simp [hr] at h0
            rw [h0]

/-- Reading a frame stops at the lowest cell that is unwritten. -/
theorem readFrom_error {m : Memory} {i n j : Nat} :
    m.readFrom i n = .error j ↔ i ≤ j ∧ j < i + n ∧ m.read j = none ∧ ∀ k, i ≤ k → k < j → (m.read k).isSome := by
  induction n generalizing i with
  | zero =>
    simp only [readFrom, reduceCtorEq, false_iff]
    omega
  | succ n ih =>
    cases hr : m.read i with
    | none =>
      simp only [readFrom, hr, Except.error.injEq]
      constructor
      · rintro rfl
        exact ⟨Nat.le_refl _, by omega, hr, fun k h1 h2 => by omega⟩
      · rintro ⟨h1, _, _, h4⟩
        by_contra hne
        have := h4 i (Nat.le_refl _) (by omega)
        simp [hr] at this
    | some b =>
      have step : m.readFrom i (n + 1) = .error j ↔ m.readFrom (i + 1) n = .error j := by
        simp only [readFrom, hr]
        cases m.readFrom (i + 1) n <;> simp
      rw [step, ih]
      constructor
      · rintro ⟨h1, h2, h3, h4⟩
        refine ⟨by omega, by omega, h3, fun k hk1 hk2 => ?_⟩
        by_cases hki : k = i
        · simp [hki, hr]
        · exact h4 k (by omega) hk2
      · rintro ⟨h1, h2, h3, h4⟩
        have : j ≠ i := by
          rintro rfl
          simp [hr] at h3
        exact ⟨by omega, by omega, h3, fun k hk1 hk2 => h4 k (by omega) hk2⟩

end Memory

/-- At reset the frame buffer is in canonical form, and every cell of it is unwritten. -/
theorem State.reset_fb_wf : State.reset.fb.wf = true := rfl

end Sys2Proof.Machine
end

