-- ==== Sys2Proof/Laws/State.lean ====
section
/-! SUPPORT. Every field after every update of the state, so that no later proof unfolds a record update. -/

namespace Sys2Proof.Machine

variable (s : State)

/-! ### record -/

@[simp] theorem State.record_dir (e : Event) : (s.record e).dir = s.dir := rfl
@[simp] theorem State.record_fb (e : Event) : (s.record e).fb = s.fb := rfl
@[simp] theorem State.record_result (e : Event) : (s.record e).result = s.result := rfl
@[simp] theorem State.record_cmd (e : Event) : (s.record e).cmd = s.cmd := rfl
@[simp] theorem State.record_seq (e : Event) : (s.record e).seq = s.seq := rfl
@[simp] theorem State.record_timeUs (e : Event) : (s.record e).timeUs = s.timeUs := rfl
@[simp] theorem State.record_hist (e : Event) : (s.record e).hist = s.hist ++ [e] := rfl
@[simp] theorem State.record_levels (e : Event) : (s.record e).levels = s.levels := rfl
@[simp] theorem State.record_acks (e : Event) : (s.record e).acks = s.acks := rfl
@[simp] theorem State.record_moves (e : Event) : (s.record e).moves = s.moves := rfl

/-! ### setDir -/

@[simp] theorem State.setDir_dir (d : Direction) : (s.setDir d).dir = d := rfl
@[simp] theorem State.setDir_fb (d : Direction) : (s.setDir d).fb = s.fb := rfl
@[simp] theorem State.setDir_result (d : Direction) : (s.setDir d).result = s.result := rfl
@[simp] theorem State.setDir_cmd (d : Direction) : (s.setDir d).cmd = s.cmd := rfl
@[simp] theorem State.setDir_seq (d : Direction) : (s.setDir d).seq = s.seq := rfl
@[simp] theorem State.setDir_timeUs (d : Direction) : (s.setDir d).timeUs = s.timeUs := rfl
@[simp] theorem State.setDir_hist (d : Direction) : (s.setDir d).hist = s.hist ++ [.drive s.timeUs d] := rfl
@[simp] theorem State.setDir_levels (d : Direction) : (s.setDir d).levels = s.levels := rfl
@[simp] theorem State.setDir_acks (d : Direction) : (s.setDir d).acks = s.acks := rfl
@[simp] theorem State.setDir_moves (d : Direction) : (s.setDir d).moves = s.moves := rfl

/-! ### busyWait -/

@[simp] theorem State.busyWait_dir (d : Nat) : (s.busyWait d).dir = s.dir := rfl
@[simp] theorem State.busyWait_fb (d : Nat) : (s.busyWait d).fb = s.fb := rfl
@[simp] theorem State.busyWait_result (d : Nat) : (s.busyWait d).result = s.result := rfl
@[simp] theorem State.busyWait_cmd (d : Nat) : (s.busyWait d).cmd = s.cmd := rfl
@[simp] theorem State.busyWait_seq (d : Nat) : (s.busyWait d).seq = s.seq := rfl
@[simp] theorem State.busyWait_timeUs (d : Nat) : (s.busyWait d).timeUs = s.timeUs + d := rfl
@[simp] theorem State.busyWait_hist (d : Nat) : (s.busyWait d).hist = s.hist := rfl
@[simp] theorem State.busyWait_levels (d : Nat) : (s.busyWait d).levels = s.levels := rfl
@[simp] theorem State.busyWait_acks (d : Nat) : (s.busyWait d).acks = s.acks := rfl
@[simp] theorem State.busyWait_moves (d : Nat) : (s.busyWait d).moves = s.moves := rfl

/-! ### setResult -/

@[simp] theorem State.setResult_dir (r : Word) : (s.setResult r).dir = s.dir := rfl
@[simp] theorem State.setResult_fb (r : Word) : (s.setResult r).fb = s.fb := rfl
@[simp] theorem State.setResult_result (r : Word) : (s.setResult r).result = r := rfl
@[simp] theorem State.setResult_cmd (r : Word) : (s.setResult r).cmd = s.cmd := rfl
@[simp] theorem State.setResult_seq (r : Word) : (s.setResult r).seq = s.seq := rfl
@[simp] theorem State.setResult_timeUs (r : Word) : (s.setResult r).timeUs = s.timeUs := rfl
@[simp] theorem State.setResult_hist (r : Word) : (s.setResult r).hist = s.hist := rfl
@[simp] theorem State.setResult_levels (r : Word) : (s.setResult r).levels = s.levels := rfl
@[simp] theorem State.setResult_acks (r : Word) : (s.setResult r).acks = s.acks := rfl
@[simp] theorem State.setResult_moves (r : Word) : (s.setResult r).moves = s.moves := rfl

/-! ### setSeq -/

@[simp] theorem State.setSeq_dir (q : SeqPos) : (s.setSeq q).dir = s.dir := rfl
@[simp] theorem State.setSeq_fb (q : SeqPos) : (s.setSeq q).fb = s.fb := rfl
@[simp] theorem State.setSeq_result (q : SeqPos) : (s.setSeq q).result = s.result := rfl
@[simp] theorem State.setSeq_cmd (q : SeqPos) : (s.setSeq q).cmd = s.cmd := rfl
@[simp] theorem State.setSeq_seq (q : SeqPos) : (s.setSeq q).seq = q := rfl
@[simp] theorem State.setSeq_timeUs (q : SeqPos) : (s.setSeq q).timeUs = s.timeUs := rfl
@[simp] theorem State.setSeq_hist (q : SeqPos) : (s.setSeq q).hist = s.hist := rfl
@[simp] theorem State.setSeq_levels (q : SeqPos) : (s.setSeq q).levels = s.levels := rfl
@[simp] theorem State.setSeq_acks (q : SeqPos) : (s.setSeq q).acks = s.acks := rfl
@[simp] theorem State.setSeq_moves (q : SeqPos) : (s.setSeq q).moves = s.moves := rfl

/-! ### setCell -/

@[simp] theorem State.setCell_dir (a : Nat) (v : Byte) : (s.setCell a v).dir = s.dir := rfl
@[simp] theorem State.setCell_fb (a : Nat) (v : Byte) : (s.setCell a v).fb = s.fb.write a v := rfl
@[simp] theorem State.setCell_result (a : Nat) (v : Byte) : (s.setCell a v).result = s.result := rfl
@[simp] theorem State.setCell_cmd (a : Nat) (v : Byte) : (s.setCell a v).cmd = s.cmd := rfl
@[simp] theorem State.setCell_seq (a : Nat) (v : Byte) : (s.setCell a v).seq = s.seq := rfl
@[simp] theorem State.setCell_timeUs (a : Nat) (v : Byte) : (s.setCell a v).timeUs = s.timeUs := rfl
@[simp] theorem State.setCell_hist (a : Nat) (v : Byte) : (s.setCell a v).hist = s.hist := rfl
@[simp] theorem State.setCell_levels (a : Nat) (v : Byte) : (s.setCell a v).levels = s.levels := rfl
@[simp] theorem State.setCell_acks (a : Nat) (v : Byte) : (s.setCell a v).acks = s.acks := rfl
@[simp] theorem State.setCell_moves (a : Nat) (v : Byte) : (s.setCell a v).moves = s.moves := rfl

/-! ### endTransmit -/

@[simp] theorem State.endTransmit_dir (r : Word) : (s.endTransmit r).dir = s.dir := rfl
@[simp] theorem State.endTransmit_fb (r : Word) : (s.endTransmit r).fb = s.fb := rfl
@[simp] theorem State.endTransmit_result (r : Word) : (s.endTransmit r).result = r := rfl
@[simp] theorem State.endTransmit_cmd (r : Word) : (s.endTransmit r).cmd = s.cmd := rfl
@[simp] theorem State.endTransmit_seq (r : Word) : (s.endTransmit r).seq = .idle := rfl
@[simp] theorem State.endTransmit_timeUs (r : Word) : (s.endTransmit r).timeUs = s.timeUs := rfl
@[simp] theorem State.endTransmit_hist (r : Word) : (s.endTransmit r).hist = s.hist := rfl
@[simp] theorem State.endTransmit_levels (r : Word) : (s.endTransmit r).levels = s.levels := rfl
@[simp] theorem State.endTransmit_acks (r : Word) : (s.endTransmit r).acks = s.acks := rfl
@[simp] theorem State.endTransmit_moves (r : Word) : (s.endTransmit r).moves = s.moves := rfl

/-! ### takeCommand -/

@[simp] theorem State.takeCommand_dir : (s.takeCommand).dir = s.dir := rfl
@[simp] theorem State.takeCommand_fb : (s.takeCommand).fb = s.fb := rfl
@[simp] theorem State.takeCommand_result : (s.takeCommand).result = s.result := rfl
@[simp] theorem State.takeCommand_cmd : (s.takeCommand).cmd = none := rfl
@[simp] theorem State.takeCommand_seq : (s.takeCommand).seq = s.seq := rfl
@[simp] theorem State.takeCommand_timeUs : (s.takeCommand).timeUs = s.timeUs := rfl
@[simp] theorem State.takeCommand_hist : (s.takeCommand).hist = s.hist := rfl
@[simp] theorem State.takeCommand_levels : (s.takeCommand).levels = s.levels := rfl
@[simp] theorem State.takeCommand_acks : (s.takeCommand).acks = s.acks := rfl
@[simp] theorem State.takeCommand_moves : (s.takeCommand).moves = s.moves := rfl

/-! ### askedLevel -/

@[simp] theorem State.askedLevel_dir : (s.askedLevel).dir = s.dir := rfl
@[simp] theorem State.askedLevel_fb : (s.askedLevel).fb = s.fb := rfl
@[simp] theorem State.askedLevel_result : (s.askedLevel).result = s.result := rfl
@[simp] theorem State.askedLevel_cmd : (s.askedLevel).cmd = s.cmd := rfl
@[simp] theorem State.askedLevel_seq : (s.askedLevel).seq = s.seq := rfl
@[simp] theorem State.askedLevel_timeUs : (s.askedLevel).timeUs = s.timeUs := rfl
@[simp] theorem State.askedLevel_hist : (s.askedLevel).hist = s.hist := rfl
@[simp] theorem State.askedLevel_levels : (s.askedLevel).levels = s.levels.tail := rfl
@[simp] theorem State.askedLevel_acks : (s.askedLevel).acks = s.acks := rfl
@[simp] theorem State.askedLevel_moves : (s.askedLevel).moves = s.moves := rfl

/-! ### askedAck -/

@[simp] theorem State.askedAck_dir : (s.askedAck).dir = s.dir := rfl
@[simp] theorem State.askedAck_fb : (s.askedAck).fb = s.fb := rfl
@[simp] theorem State.askedAck_result : (s.askedAck).result = s.result := rfl
@[simp] theorem State.askedAck_cmd : (s.askedAck).cmd = s.cmd := rfl
@[simp] theorem State.askedAck_seq : (s.askedAck).seq = s.seq := rfl
@[simp] theorem State.askedAck_timeUs : (s.askedAck).timeUs = s.timeUs := rfl
@[simp] theorem State.askedAck_hist : (s.askedAck).hist = s.hist := rfl
@[simp] theorem State.askedAck_levels : (s.askedAck).levels = s.levels := rfl
@[simp] theorem State.askedAck_acks : (s.askedAck).acks = s.acks.tail := rfl
@[simp] theorem State.askedAck_moves : (s.askedAck).moves = s.moves := rfl

/-! ### moveTaken -/

@[simp] theorem State.moveTaken_dir : (s.moveTaken).dir = s.dir := rfl
@[simp] theorem State.moveTaken_fb : (s.moveTaken).fb = s.fb := rfl
@[simp] theorem State.moveTaken_result : (s.moveTaken).result = s.result := rfl
@[simp] theorem State.moveTaken_cmd : (s.moveTaken).cmd = s.cmd := rfl
@[simp] theorem State.moveTaken_seq : (s.moveTaken).seq = s.seq := rfl
@[simp] theorem State.moveTaken_timeUs : (s.moveTaken).timeUs = s.timeUs := rfl
@[simp] theorem State.moveTaken_hist : (s.moveTaken).hist = s.hist := rfl
@[simp] theorem State.moveTaken_levels : (s.moveTaken).levels = s.levels := rfl
@[simp] theorem State.moveTaken_acks : (s.moveTaken).acks = s.acks := rfl
@[simp] theorem State.moveTaken_moves : (s.moveTaken).moves = s.moves.tail := rfl

/-! ### illegalCommand -/

@[simp] theorem State.illegalCommand_dir : (s.illegalCommand).dir = s.dir := rfl
@[simp] theorem State.illegalCommand_fb : (s.illegalCommand).fb = s.fb := rfl
@[simp] theorem State.illegalCommand_result : (s.illegalCommand).result = resultIllegalCommand := rfl
@[simp] theorem State.illegalCommand_cmd : (s.illegalCommand).cmd = s.cmd := rfl
@[simp] theorem State.illegalCommand_seq : (s.illegalCommand).seq = s.seq := rfl
@[simp] theorem State.illegalCommand_timeUs : (s.illegalCommand).timeUs = s.timeUs := rfl
@[simp] theorem State.illegalCommand_hist : (s.illegalCommand).hist = s.hist := rfl
@[simp] theorem State.illegalCommand_levels : (s.illegalCommand).levels = s.levels := rfl
@[simp] theorem State.illegalCommand_acks : (s.illegalCommand).acks = s.acks := rfl
@[simp] theorem State.illegalCommand_moves : (s.illegalCommand).moves = s.moves := rfl

/-! ### idleStep -/

@[simp] theorem State.idleStep_dir (d : Nat) : (s.idleStep d).dir = s.dir := rfl
@[simp] theorem State.idleStep_fb (d : Nat) : (s.idleStep d).fb = s.fb := rfl
@[simp] theorem State.idleStep_result (d : Nat) : (s.idleStep d).result = s.result := rfl
@[simp] theorem State.idleStep_cmd (d : Nat) : (s.idleStep d).cmd = s.cmd := rfl
@[simp] theorem State.idleStep_seq (d : Nat) : (s.idleStep d).seq = s.seq := rfl
@[simp] theorem State.idleStep_timeUs (d : Nat) : (s.idleStep d).timeUs = s.timeUs + d := rfl
@[simp] theorem State.idleStep_hist (d : Nat) : (s.idleStep d).hist = s.hist := rfl
@[simp] theorem State.idleStep_levels (d : Nat) : (s.idleStep d).levels = s.levels := rfl
@[simp] theorem State.idleStep_acks (d : Nat) : (s.idleStep d).acks = s.acks := rfl
@[simp] theorem State.idleStep_moves (d : Nat) : (s.idleStep d).moves = s.moves := rfl

/-! ### resetBlock -/

@[simp] theorem State.resetBlock_dir : (s.resetBlock).dir = .released := rfl
@[simp] theorem State.resetBlock_fb : (s.resetBlock).fb = [] := rfl
@[simp] theorem State.resetBlock_result : (s.resetBlock).result = 0x0000 := rfl
@[simp] theorem State.resetBlock_cmd : (s.resetBlock).cmd = none := rfl
@[simp] theorem State.resetBlock_seq : (s.resetBlock).seq = .idle := rfl
@[simp] theorem State.resetBlock_timeUs : (s.resetBlock).timeUs = 0 := rfl
@[simp] theorem State.resetBlock_hist : (s.resetBlock).hist = [] := rfl
@[simp] theorem State.resetBlock_levels : (s.resetBlock).levels = s.levels := rfl
@[simp] theorem State.resetBlock_acks : (s.resetBlock).acks = s.acks := rfl
@[simp] theorem State.resetBlock_moves : (s.resetBlock).moves = s.moves := rfl

end Sys2Proof.Machine
end

