-- ==== Sys2Proof/Laws/Ops.lean ====
section
/-! SUPPORT. What each shared operation does, said once: oracles, the level of the wire, pulses, ACK waits, and the
blocks of a frame in closed form. Later proofs cite these and do not unfold the operations. -/

namespace Sys2Proof.Machine

open Sys2Proof.Config

/-! ### Oracles -/

@[simp] theorem Oracle.head_cons {α : Type} (free : Nat → α) (a : α) (rest : List α) (k : Nat) :
    Oracle.head free ⟨a :: rest, k⟩ = a := rfl

@[simp] theorem Oracle.head_nil {α : Type} (free : Nat → α) (k : Nat) :
    Oracle.head free ⟨[], k⟩ = free k := rfl

@[simp] theorem Oracle.tail_cons {α : Type} (a : α) (rest : List α) (k : Nat) :
    (⟨a :: rest, k⟩ : Oracle α).tail = ⟨rest, k⟩ := rfl

@[simp] theorem Oracle.tail_nil {α : Type} (k : Nat) :
    (⟨[], k⟩ : Oracle α).tail = ⟨[], k + 1⟩ := rfl

@[simp] theorem Oracle.advance_zero {α : Type} (o : Oracle α) : o.advance 0 = o := rfl

@[simp] theorem Oracle.advance_succ {α : Type} (k : Nat) (o : Oracle α) :
    o.advance (k + 1) = o.tail.advance k := rfl

/-- Advancing by one more question at the end is the same as at the start. -/
theorem Oracle.tail_advance {α : Type} (k : Nat) (o : Oracle α) : (o.advance k).tail = o.tail.advance k := by
  induction k generalizing o with
  | zero => rfl
  | succ k ih => exact ih o.tail

/-- The answer to a later question is the answer of the advanced oracle. -/
theorem Oracle.answer_eq_head_advance {α : Type} (free : Nat → α) (o : Oracle α) (k : Nat) :
    o.answer free k = (o.advance k).head free := by
  induction k generalizing o with
  | zero => rfl
  | succ k ih => exact ih o.tail

@[simp] theorem Oracle.answer_zero {α : Type} (free : Nat → α) (o : Oracle α) :
    o.answer free 0 = o.head free := rfl

@[simp] theorem Oracle.answer_tail {α : Type} (free : Nat → α) (o : Oracle α) (k : Nat) :
    o.tail.answer free k = o.answer free (k + 1) := rfl

/-! ### The wire as the block reads it -/

/-- Reading the wire changes at most the environment's list of answers (R61). -/
theorem State.afterLineLevel_eq (s : State) :
    s.afterLineLevel = { s with levels := s.afterLineLevel.levels } := by
  obtain ⟨dir, _⟩ := s
  cases dir <;> rfl

/-- While the block asserts, the wire reads Low and the environment is not asked (R61). -/
theorem State.lineLevel_asserted {s : State} (h : s.dir = .asserted) :
    s.lineLevel = .low ∧ s.afterLineLevel = s := by
  simp [State.lineLevel, State.afterLineLevel, h]

/-- While the block is released, the wire reads what the environment answers (R61). -/
theorem State.lineLevel_released {s : State} (h : s.dir = .released) :
    s.lineLevel = s.envLevelNow ∧ s.afterLineLevel = s.askedLevel := by
  simp [State.lineLevel, State.afterLineLevel, h]

/-! ### Pulses and ACK waits -/

/-- A pulse appends its two Drive events, lets both phases pass and ends released (R68, R69). -/
theorem pulseSteps_eq (low high : Nat) (s : State) :
    pulseSteps low high s =
      { s with dir := .released, timeUs := s.timeUs + (low + high),
               hist := s.hist ++ pulseEvents s.timeUs low } := by
  simp [pulseSteps, State.setDir, State.busyWait, pulseEvents, Nat.add_assoc]

/-- Either data bit lasts 2400 µs (R67). -/
theorem lowUs_add_highUs (v : Bool) : lowUs v + highUs v = 2400 := by
  cases v <;> rfl

/-- `bit_steps` in closed form (R69). -/
theorem bitSteps_eq (v : Bool) (s : State) :
    bitSteps v s =
      { s with dir := .released, timeUs := s.timeUs + 2400,
               hist := s.hist ++ pulseEvents s.timeUs (lowUs v) } := by
  rw [bitSteps, pulseSteps_eq, lowUs_add_highUs]

/-- `start_steps` in closed form (R68). -/
theorem startSteps_eq (s : State) :
    startSteps s =
      { s with dir := .released, timeUs := s.timeUs + 4500,
               hist := s.hist ++ pulseEvents s.timeUs 3700 } := by
  rw [startSteps, pulseSteps_eq]
  rfl

/-- While the block asserts, an ACK wait sees the block's own low at once (R70). -/
theorem ackSteps_asserted {s : State} (h : s.dir = .asserted) :
    s.ackOutcome = .ack 0 ∧ ackSteps s = { s with hist := s.hist ++ [.ackWait s.timeUs (.ack 0)] } := by
  simp [ackSteps, State.ackOutcome, State.afterAckOutcome, h, State.record, State.busyWait, ackWaitUs]

/-- While the block is released, an ACK wait ends as the environment answers (R70). -/
theorem ackSteps_released {s : State} (h : s.dir = .released) :
    s.ackOutcome = s.envAckAt 0 ∧
      ackSteps s = { s with timeUs := s.timeUs + ackWaitUs (s.envAckAt 0), acks := s.acks.tail,
                            hist := s.hist ++ [.ackWait s.timeUs (s.envAckAt 0)] } := by
  simp [ackSteps, State.ackOutcome, State.afterAckOutcome, h, State.record, State.busyWait, State.askedAck]

/-- An ACK wait lasts at most the ACK window (R71). -/
theorem ackWaitUs_le (o : AckAnswer) : ackWaitUs o ≤ 2000 := by
  cases o with
  | ack e => exact Nat.le_of_lt_succ e.isLt
  | nack => exact Nat.le_refl _

/-! ### The blocks of a frame -/

/-- A run of data bits, one SEQ position after another, in closed form. -/
theorem foldl_sendDataBit_eq (i : Nat) (b : Byte) (js : List (Fin 8)) (s : State) :
    js.foldl (fun s j => sendDataBit i b j s) s =
      { s with dir := if js = [] then s.dir else .released,
               seq := js.foldl (fun _ j => .data i j) s.seq,
               timeUs := s.timeUs + 2400 * js.length,
               hist := s.hist ++ bitsEvents s.timeUs (js.map (dataBit b)) } := by
  induction js generalizing s with
  | nil => simp [bitsEvents]
  | cons j js ih =>
    rw [List.foldl_cons, ih, sendDataBit, bitSteps_eq]
    simp only [State.setSeq, bitsEvents, List.map_cons, List.length_cons, List.append_assoc, List.foldl_cons,
      reduceCtorEq, if_false, ite_self, State.mk.injEq, and_true, true_and]
    omega

theorem bitsEvents_append (t : Nat) (vs us : List Bool) :
    bitsEvents t (vs ++ us) = bitsEvents t vs ++ bitsEvents (t + 2400 * vs.length) us := by
  induction vs generalizing t with
  | nil => simp [bitsEvents]
  | cons v vs ih =>
    rw [List.cons_append, bitsEvents, ih, bitsEvents, List.append_assoc, List.length_cons,
      show t + 2400 + 2400 * vs.length = t + 2400 * (vs.length + 1) by omega]

/-- The 8 data bits of a block in closed form (R82). -/
theorem sendDataBits_eq (i : Nat) (b : Byte) (s : State) :
    sendDataBits i b s =
      { s with dir := .released, seq := .data i 7, timeUs := s.timeUs + 19200,
               hist := s.hist ++ bitsEvents s.timeUs (dataBitOrder.map (dataBit b)) } := by
  rw [sendDataBits, foldl_sendDataBit_eq]
  rfl

/-- A block up to its ACK wait in closed form: nine bits and the release (R82 to R84). -/
theorem sendBlock_eq (n i : Nat) (b : Byte) (s : State) :
    sendBlock n i b s =
      { s with dir := .released, seq := .ack i, timeUs := s.timeUs + 21600,
               hist := s.hist ++ (bitsEvents s.timeUs (blockBits n i b) ++
                 [.drive (s.timeUs + 21600) .released]) } := by
  rw [sendBlock, sendDataBits_eq, bitSteps_eq, blockBits, bitsEvents_append]
  simp [State.setSeq, State.setDir, bitsEvents, dataBitOrder]

end Sys2Proof.Machine
end

