-- ==== Sys2Proof/Laws/PerInstr.lean ====
section
/-! SUPPORT. For every instruction, as a piece of text: its encoding agrees with its own row of the table in
30_encoding.md R49 under that row's mask, so no operand disturbs a fixed bit. -/

namespace Sys2Proof.Laws.Encoding

/-- The encoding of an instruction matches the instruction's row of the opcode table (R49). -/
def Statement (i : Instr) : Prop := encode i &&& rowMask i = rowMatch i

theorem release : Statement .release := by
  unfold Statement
  decide

theorem assert : Statement .assert := by
  unfold Statement
  decide

theorem sample : Statement .sample := by
  unfold Statement
  decide

theorem sendStart : Statement .sendStart := by
  unfold Statement
  decide

theorem sendBit (v : BitVec 1) : Statement (.sendBit v) := by
  revert v
  unfold Statement
  decide

theorem waitAck : Statement .waitAck := by
  unfold Statement
  decide

/-- The mask of LOAD_FB keeps the opcode alone, which is the low part of its encoding. -/
theorem loadFb (idx : BitVec 4) (val : BitVec 8) : Statement (.loadFb idx val) := by
  have low : ∀ (x : BitVec 12) (o : BitVec 4), (x ++ o) &&& (0x000F : BitVec 16) = o.setWidth 16 := by
    intro x o
    apply BitVec.eq_of_toNat_eq
    have hx := x.isLt
    have ho := o.isLt
    rw [BitVec.toNat_and, BitVec.toNat_append, BitVec.toNat_setWidth]
    rw [show (0x000F : BitVec 16).toNat = 2 ^ 4 - 1 from rfl, Nat.and_two_pow_sub_one_eq_mod,
      ← Nat.shiftLeft_add_eq_or_of_lt ho, Nat.shiftLeft_eq]
    omega
  exact low (val ++ idx) (opcodeOf (.loadFb idx val))

theorem transmit (n : BitVec 5) : Statement (.transmit n) := by
  revert n
  unfold Statement
  decide

end Sys2Proof.Laws.Encoding
end

