-- ==== Sys2Proof/Laws/Wave.lean ====
section
/-! SUPPORT. The laws of the waveform and the history (10_state.md R24, R25): what appended events do to the drive at a
time, to the counts and to the order of time, and the pulses of a run of bits. -/

namespace Sys2Proof.Machine

open Sys2Proof.Config

theorem driveAt_append (h ev : List Event) (τ : Nat) :
    driveAt (h ++ ev) τ = ev.foldl (driveStep τ) (driveAt h τ) := List.foldl_append

@[simp] theorem driveAt_nil (τ : Nat) : driveAt [] τ = .released := rfl

/-- One more Drive event decides the drive from its time on, and nothing before. -/
@[simp] theorem driveAt_append_drive (h : List Event) (t τ : Nat) (d : Direction) :
    driveAt (h ++ [.drive t d]) τ = if t ≤ τ then d else driveAt h τ := by
  simp [driveAt_append, driveStep]

@[simp] theorem drivesOf_append (h ev : List Event) : drivesOf (h ++ ev) = drivesOf h ++ drivesOf ev := by
  induction h with
  | nil => rfl
  | cons e h ih => cases e <;> simp [drivesOf, ih]

@[simp] theorem driveCount_append (h ev : List Event) : driveCount (h ++ ev) = driveCount h + driveCount ev := by
  simp [driveCount]

@[simp] theorem sampleCount_append (h ev : List Event) : sampleCount (h ++ ev) = sampleCount h + sampleCount ev := by
  induction h with
  | nil => simp [sampleCount]
  | cons e h ih => cases e <;> simp [sampleCount, ih, Nat.add_right_comm]

@[simp] theorem ackWaitCount_append (h ev : List Event) :
    ackWaitCount (h ++ ev) = ackWaitCount h + ackWaitCount ev := by
  induction h with
  | nil => simp [ackWaitCount]
  | cons e h ih => cases e <;> simp [ackWaitCount, ih, Nat.add_right_comm]

/-- The tolerance band as inequalities (R116). -/
theorem realizedBy_iff (y : Symbol) (tol low high : Nat) : y.realizedBy tol low high = true ↔
    (y.lowPhase ≤ low + tol ∧ low ≤ y.lowPhase + tol) ∧ (y.highPhase ≤ high + tol ∧ high ≤ y.highPhase + tol) ∧
      y.lowPhase + y.highPhase ≤ low + high + tol ∧ low + high ≤ y.lowPhase + y.highPhase + tol := by
  simp [Symbol.realizedBy, pulseWithin, within, and_assoc]

/-- After the last event of a history the drive no longer changes. -/
theorem driveAt_after {h : List Event} {now τ : Nat} (hh : ∀ e ∈ h, e.time ≤ now) (hτ : now ≤ τ) :
    driveAt h τ = driveAt h now := by
  unfold driveAt
  generalize Direction.released = d
  induction h generalizing d with
  | nil => rfl
  | cons e h ih =>
    have he : driveStep τ d e = driveStep now d e := by
      have := hh e (List.mem_cons_self ..)
      cases e <;> simp only [Event.time] at this <;> simp [driveStep, this]
      omega
    rw [List.foldl_cons, List.foldl_cons, he]
    exact ih (fun x hx => hh x (List.mem_cons_of_mem _ hx)) _

/-- A history stays in order of time when events dated from `now` to `later`, in order, are appended. -/
theorem chronological_append {h ev : List Event} {now later : Nat} (hh : chronological h now) (hle : now ≤ later)
    (hord : (ev.map Event.time).Pairwise (· ≤ ·)) (hev : ∀ e ∈ ev, now ≤ e.time ∧ e.time ≤ later) :
    chronological (h ++ ev) later := by
  refine ⟨?_, fun e he => ?_⟩
  · rw [List.map_append, List.pairwise_append]
    refine ⟨hh.1, hord, fun a ha b hb => ?_⟩
    obtain ⟨x, hx, rfl⟩ := List.mem_map.1 ha
    obtain ⟨y, hy, rfl⟩ := List.mem_map.1 hb
    exact Nat.le_trans (hh.2 x hx) (hev y hy).1
  · rcases List.mem_append.1 he with he | he
    · exact Nat.le_trans (hh.2 e he) hle
    · exact (hev e he).2

/-- The low phase of either bit ends before its period does. -/
theorem lowUs_lt (v : Bool) : 0 < lowUs v ∧ lowUs v < 2400 := by
  cases v <;> decide

/-- The events of a run of bits are in order of time and inside the run. -/
theorem bitsEvents_times (t : Nat) (vs : List Bool) :
    ((bitsEvents t vs).map Event.time).Pairwise (· ≤ ·) ∧
      ∀ e ∈ bitsEvents t vs, t ≤ e.time ∧ e.time ≤ t + 2400 * vs.length := by
  induction vs generalizing t with
  | nil => simp [bitsEvents]
  | cons v vs ih =>
    have hv := lowUs_lt v
    obtain ⟨ih1, ih2⟩ := ih (t + 2400)
    refine ⟨?_, fun e he => ?_⟩
    · simp only [bitsEvents, pulseEvents, List.map_cons, List.cons_append,
        List.nil_append, List.pairwise_cons, Event.time]
      refine ⟨fun x hx => ?_, fun x hx => ?_, ih1⟩
      · rcases List.mem_cons.1 hx with rfl | hx
        · omega
        · obtain ⟨y, hy, rfl⟩ := List.mem_map.1 hx
          have := ih2 y hy
          omega
      · obtain ⟨y, hy, rfl⟩ := List.mem_map.1 hx
        have := ih2 y hy
        omega
    · rw [List.length_cons]
      rcases List.mem_append.1 he with he | he
      · simp only [pulseEvents, List.mem_cons, List.not_mem_nil, or_false] at he
        rcases he with rfl | rfl <;> simp only [Event.time] <;> omega
      · have := ih2 e he
        omega

/-- Nine bits make a block. -/
@[simp] theorem blockBits_length (n i : Nat) (b : Byte) : (blockBits n i b).length = 9 := by
  simp [blockBits, dataBitOrder]

/-- The events of the blocks of a frame are in order of time and inside the frame. -/
theorem blocksEvents_times (n i t : Nat) (l : List (Byte × AckAnswer)) :
    ((blocksEvents n i t l).map Event.time).Pairwise (· ≤ ·) ∧
      ∀ e ∈ blocksEvents n i t l, t ≤ e.time ∧ e.time ≤ t + blocksUs l := by
  induction l generalizing i t with
  | nil => simp [blocksEvents]
  | cons x l ih =>
    obtain ⟨b, o⟩ := x
    obtain ⟨ih1, ih2⟩ := ih (i + 1) (t + blockUs + ackWaitUs o)
    obtain ⟨hb1, hb2⟩ := bitsEvents_times t (blockBits n i b)
    simp only [blockBits_length] at hb2
    have tail : ∀ e ∈ blockEvents n i t b o, t ≤ e.time ∧ e.time ≤ t + 21600 := by
      intro e he
      rcases List.mem_append.1 he with he | he
      · exact hb2 e he
      · simp only [List.mem_cons, List.not_mem_nil, or_false] at he
        rcases he with rfl | rfl <;> simp [Event.time]
    refine ⟨?_, fun e he => ?_⟩
    · simp only [blocksEvents, blockEvents, List.map_append, List.pairwise_append]
      refine ⟨⟨hb1, by simp [Event.time], fun x hx y hy => ?_⟩, ih1, fun x hx y hy => ?_⟩
      · obtain ⟨u, hu, rfl⟩ := List.mem_map.1 hx
        have := (hb2 u hu).2
        simp [Event.time] at hy
        omega
      · rw [← List.map_append] at hx
        obtain ⟨u, hu, rfl⟩ := List.mem_map.1 hx
        obtain ⟨w, hw, rfl⟩ := List.mem_map.1 hy
        have h1 := (tail u hu).2
        have h2 := (ih2 w hw).1
        simp only [blockUs] at h2
        omega
    · simp only [blocksUs]
      rcases List.mem_append.1 he with he | he
      · have := tail e he
        simp only [blockUs]
        omega
      · have := ih2 e he
        simp only [blockUs] at *
        omega

end Sys2Proof.Machine
end

