-- ==== Sys2Proof/Laws/Realize.lean ====
section
/-! SUPPORT. The laws of spans and their realizations (70_reset_and_hazards.md R116): waveforms and lengths of spans
side by side, the nominal spans as their own realization, and the spans read back from the events of a frame. -/

namespace Sys2Proof.Machine

open Sys2Proof.Config

/-! ### Spans side by side -/

@[simp] theorem spansUs_append (a b : List Span) : spansUs (a ++ b) = spansUs a + spansUs b := by
  induction a with
  | nil => simp [spansUs]
  | cons x a ih => simp [spansUs, ih, Nat.add_assoc]

@[simp] theorem waveEvents_append (t : Nat) (a b : List Span) :
    waveEvents t (a ++ b) = waveEvents t a ++ waveEvents (t + spansUs a) b := by
  induction a generalizing t with
  | nil => simp [waveEvents, spansUs]
  | cons x a ih => simp [waveEvents, spansUs, ih, Nat.add_assoc]

/-- A gap only moves the waveform (R28). -/
theorem waveEvents_gap (t us : Nat) : waveEvents t [.gap us] = [] := rfl

/-! ### The drive depends on the Drive events alone (R25) -/

theorem driveAt_eq_of_drives (h : List Event) (τ : Nat) :
    driveAt h τ = (drivesOf h).foldl (fun d x => if x.1 ≤ τ then x.2 else d) .released := by
  unfold driveAt
  generalize Direction.released = d
  induction h generalizing d with
  | nil => rfl
  | cons e h ih => cases e <;> simp only [List.foldl_cons, driveStep, drivesOf] <;> exact ih _

theorem driveAt_congr {h g : List Event} (hg : drivesOf h = drivesOf g) (τ : Nat) : driveAt h τ = driveAt g τ := by
  rw [driveAt_eq_of_drives, driveAt_eq_of_drives, hg]

/-! ### Realizations -/

theorem within_iff (tol nominal x : Nat) : within tol nominal x = true ↔ nominal ≤ x + tol ∧ x ≤ nominal + tol := by
  simp [within]

theorem pulseWithin_iff (tol low high low' high' : Nat) : pulseWithin tol low high low' high' = true ↔
    (low ≤ low' + tol ∧ low' ≤ low + tol) ∧ (high ≤ high' + tol ∧ high' ≤ high + tol) ∧
      low + high ≤ low' + high' + tol ∧ low' + high' ≤ low + high + tol := by
  simp [pulseWithin, within, and_assoc]

/-- What a realization of one span can be, said once. -/
theorem Span.realizedBy_cases {tol : Nat} {x y : Span} (h : x.realizedBy tol y = true) :
    (∃ d, x = .drive d ∧ y = .drive d) ∨
      (∃ low high low' high', x = .pulse low high ∧ y = .pulse low' high' ∧
        pulseWithin tol low high low' high' = true) ∨
      (∃ us us', x = .ackWait us ∧ y = .ackWait us' ∧ within tol us us' = true) ∨
      ∃ us, x = .gap us ∧ y = .gap us := by
  unfold Span.realizedBy at h
  split at h
  · exact .inl ⟨_, rfl, by rw [of_decide_eq_true h]⟩
  · exact .inr (.inl ⟨_, _, _, _, rfl, rfl, h⟩)
  · exact .inr (.inr (.inl ⟨_, _, rfl, rfl, h⟩))
  · exact .inr (.inr (.inr ⟨_, rfl, by rw [of_decide_eq_true h]⟩))
  · cases h

/-- A realized span is within the tolerance as a whole. -/
theorem Span.realizedBy_us {tol : Nat} {x y : Span} (h : x.realizedBy tol y = true) :
    x.us ≤ y.us + tol ∧ y.us ≤ x.us + tol := by
  rcases realizedBy_cases h with ⟨d, rfl, rfl⟩ | ⟨_, _, _, _, rfl, rfl, h⟩ | ⟨_, _, rfl, rfl, h⟩ | ⟨us, rfl, rfl⟩
  · simp [Span.us]
  · exact ((pulseWithin_iff ..).1 h).2.2
  · exact (within_iff ..).1 h
  · simp [Span.us]

theorem realizes_nil {tol : Nat} {l : List Span} (h : realizes tol [] l = true) : l = [] := by
  cases l with
  | nil => rfl
  | cons => cases h

theorem realizes_cons {tol : Nat} {x : Span} {rest l : List Span} (h : realizes tol (x :: rest) l = true) :
    ∃ y l', l = y :: l' ∧ x.realizedBy tol y = true ∧ realizes tol rest l' = true := by
  cases l with
  | nil => cases h
  | cons y l' => exact ⟨y, l', rfl, (Bool.and_eq_true ..).mp h⟩

/-- A realization of spans side by side is a realization of each. -/
theorem realizes_append {tol : Nat} {a b l : List Span} (h : realizes tol (a ++ b) l = true) :
    ∃ l₁ l₂, l = l₁ ++ l₂ ∧ realizes tol a l₁ = true ∧ realizes tol b l₂ = true := by
  induction a generalizing l with
  | nil => exact ⟨[], l, rfl, rfl, h⟩
  | cons x a ih =>
    obtain ⟨y, l', rfl, hx, hl⟩ := realizes_cons h
    obtain ⟨l₁, l₂, rfl, h₁, h₂⟩ := ih hl
    exact ⟨y :: l₁, l₂, rfl, by simp [realizes, hx, h₁], h₂⟩

/-- Nominal times realize themselves, whatever the tolerance. -/
theorem realizes_refl (tol : Nat) (l : List Span) : realizes tol l l = true := by
  induction l with
  | nil => rfl
  | cons x l ih => cases x <;> simp [realizes, Span.realizedBy, pulseWithin, within, ih]

/-! ### The spans of a frame -/

/-- Data bits are read as pulses; the wait after the last ends at whatever comes next. -/
theorem commandSpans_bits (finish t : Nat) (vs : List Bool) (rest : List Event)
    (hr : nextMoment finish rest = t + 2400 * vs.length) :
    commandSpans finish (bitsEvents t vs ++ rest) = bitSpans vs ++ commandSpans finish rest := by
  induction vs generalizing t with
  | nil => rfl
  | cons v vs ih =>
    have hn : nextMoment finish (bitsEvents (t + 2400) vs ++ rest) = t + 2400 := by
      cases vs with
      | nil => simpa [bitsEvents] using hr
      | cons u us => rfl
    have hv : t + 2400 - (t + lowUs v) = highUs v := by
      have := lowUs_add_highUs v
      omega
    simp only [bitsEvents, pulseEvents, List.cons_append, List.nil_append, commandSpans, bitSpans, List.map_cons]
    rw [hn, hv, Nat.add_sub_cancel_left, ih _ (by rw [hr, List.length_cons]; omega)]
    rfl

/-- The blocks of a frame are read as their spans, where the command ends with the last of them. -/
theorem commandSpans_blocks (n i t : Nat) (l : List (Byte × AckAnswer)) :
    commandSpans (t + blocksUs l) (blocksEvents n i t l) = blocksSpans n i l := by
  induction l generalizing i t with
  | nil => rfl
  | cons x l ih =>
    obtain ⟨b, o⟩ := x
    have tail : commandSpans (t + (blockUs + ackWaitUs o + blocksUs l))
        (blocksEvents n (i + 1) (t + blockUs + ackWaitUs o) l) = blocksSpans n (i + 1) l := by
      rw [← ih (i + 1) (t + blockUs + ackWaitUs o), Nat.add_assoc t, Nat.add_assoc t]
    simp only [blocksEvents, blockEvents, List.append_assoc, List.cons_append, List.nil_append, blocksUs, blocksSpans,
      blockSpans]
    rw [commandSpans_bits _ _ _ _ (by rw [blockBits_length]; rfl), commandSpans, commandSpans, tail]
    · intro u rest h
      cases h

/-- The waveform of data bits has the drives of their events, and they last 2400 µs each (R67). -/
theorem waveEvents_bits (t : Nat) (vs : List Bool) :
    drivesOf (waveEvents t (bitSpans vs)) = drivesOf (bitsEvents t vs) ∧
      spansUs (bitSpans vs) = 2400 * vs.length := by
  induction vs generalizing t with
  | nil => exact ⟨rfl, rfl⟩
  | cons v vs ih =>
    obtain ⟨hd, hu⟩ := ih (t + 2400)
    rw [bitSpans, List.map_cons, ← bitSpans]
    simp only [waveEvents, bitsEvents, drivesOf_append, Span.events, Span.us, lowUs_add_highUs, hd, spansUs, hu,
      List.length_cons]
    exact ⟨trivial, by omega⟩

/-- The waveform of a frame's blocks has the drives of their events. -/
theorem waveEvents_blocks (n i t : Nat) (l : List (Byte × AckAnswer)) :
    drivesOf (waveEvents t (blocksSpans n i l)) = drivesOf (blocksEvents n i t l) := by
  induction l generalizing i t with
  | nil => rfl
  | cons x l ih =>
    obtain ⟨b, o⟩ := x
    obtain ⟨hd, hu⟩ := waveEvents_bits t (blockBits n i b)
    simp only [blocksSpans, blocksEvents, blockSpans, blockEvents, waveEvents_append, drivesOf_append, hd, hu,
      blockBits_length, waveEvents, Span.events, Span.us, spansUs_append, spansUs, ih]
    simp [drivesOf, Nat.add_assoc]

/-- How long the spans of a frame's blocks last (R90). -/
theorem spansUs_blocks (n i : Nat) (l : List (Byte × AckAnswer)) : spansUs (blocksSpans n i l) = blocksUs l := by
  induction l generalizing i with
  | nil => rfl
  | cons x l ih =>
    obtain ⟨b, o⟩ := x
    simp only [blocksSpans, blockSpans, spansUs_append, (waveEvents_bits 0 _).2, blockBits_length, spansUs, Span.us,
      ih, blocksUs, blockUs]
    omega

end Sys2Proof.Machine
end

