-- ==== Sys2Proof/Laws/Step.lean ====
section
/-! SUPPORT. What one step can do, said once, and how a run takes its first step (10_state.md R27, R28;
60_exceptions.md R103). -/

namespace Sys2Proof.Machine

/-- A step that answers a next state runs the word on CMD, or, with none there, makes one move of the host. -/
theorem step_next_cases {s t : State} (h : step s = .next t) :
    s.seq = .idle ∧
      ((∃ w i, s.cmd = some w ∧ decode w = .command i ∧ exec i s.takeCommand = .next t) ∨
        (∃ w why, s.cmd = some w ∧ decode w = .illegal why ∧ t = s.takeCommand.illegalCommand) ∨
        (s.cmd = none ∧
          ((∃ w, s.nextMove = .issue w ∧ t = { s.moveTaken with cmd := some w }) ∨
            (∃ d, s.nextMove = .idle d ∧ t = s.moveTaken.idleStep d) ∨
            (s.nextMove = .readResult ∧ t = s.moveTaken) ∨
            (s.nextMove = .reset ∧ t = s.moveTaken.resetBlock)))) := by
  unfold step stepPort at h
  split at h
  · rename_i hs
    refine ⟨hs, ?_⟩
    split at h
    · rename_i w hw
      unfold runWord at h
      split at h
      · rename_i i hd
        exact .inl ⟨w, i, hw, hd, h⟩
      · rename_i why hd
        cases h
        exact .inr (.inl ⟨w, why, hw, hd, rfl⟩)
    · rename_i hc
      refine .inr (.inr ⟨hc, ?_⟩)
      unfold hostMove at h
      split at h
      · rename_i w hm
        cases h
        exact .inl ⟨w, hm, rfl⟩
      · rename_i d hm
        cases h
        exact .inr (.inl ⟨d, hm, rfl⟩)
      · rename_i hm
        cases h
        exact .inr (.inr (.inl ⟨hm, rfl⟩))
      · rename_i hm
        cases h
        exact .inr (.inr (.inr ⟨hm, rfl⟩))
      · cases h
  · cases h

/-- A run whose first step answers a next state goes on from it. -/
theorem run_of_step {M : Host.Core} {s t : M.State} (k : Nat) (h : M.step s = .next t) :
    M.run (k + 1) s = M.run k t := by
  simp [Host.Core.run, h]

end Sys2Proof.Machine
end

