-- ==== Sys2Proof/Laws/Transmit.lean ====
section
/-! SUPPORT. TRANSMIT in closed form: the blocks it sends, the frame past its bus-free check, and the cases of the
whole command (43_frame_transmitter.md R77 to R86). -/

namespace Sys2Proof.Machine
open Sys2Proof.Config

/-- The lengths TRANSMIT accepts (R78). -/
theorem lengthLegal_iff (n : Nat) : lengthLegal n = true ↔ 1 ≤ n ∧ n ≤ 16 := by
  simp [lengthLegal, Nat.one_le_iff_ne_zero]

/-! ### The blocks a frame sends -/

theorem State.nextAcks_zero (s : State) : s.nextAcks 0 = [] := rfl

theorem State.nextAcks_succ (s : State) (n : Nat) :
    s.nextAcks (n + 1) = s.envAckAt 0 :: s.askedAck.nextAcks n := by
  rw [State.nextAcks, List.range_succ_eq_map, List.map_cons, List.map_map]
  rfl

theorem State.nextAcks_congr {s t : State} (h : s.acks = t.acks) (n : Nat) : s.nextAcks n = t.nextAcks n := by
  have h' : s.envAckAt = t.envAckAt := funext fun k => by rw [State.envAckAt, State.envAckAt, h]
  rw [State.nextAcks, State.nextAcks, h']

theorem State.sentBlocks_congr {s t : State} (h : s.acks = t.acks) (bytes : List Byte) :
    s.sentBlocks bytes = t.sentBlocks bytes := by
  rw [State.sentBlocks, State.sentBlocks, State.nextAcks_congr h]

@[simp] theorem State.sentBlocks_nil (s : State) : s.sentBlocks [] = [] := by
  simp [State.sentBlocks]

theorem State.sentBlocks_nack {s : State} (h : s.envAckAt 0 = .nack) (b : Byte) (rest : List Byte) :
    s.sentBlocks (b :: rest) = [(b, .nack)] := by
  simp [State.sentBlocks, State.nextAcks_succ, h, blocksSent]

theorem State.sentBlocks_ack {s : State} {e : Fin 2001} (h : s.envAckAt 0 = .ack e) (b : Byte) (rest : List Byte) :
    s.sentBlocks (b :: rest) = (b, .ack e) :: s.askedAck.sentBlocks rest := by
  simp [State.sentBlocks, State.nextAcks_succ, h, blocksSent]

/-- A block and its ACK wait (R82 to R84). -/
theorem ackSteps_sendBlock (n i : Nat) (b : Byte) (s : State) :
    (sendBlock n i b s).ackOutcome = s.envAckAt 0 ∧
      ackSteps (sendBlock n i b s) =
        { s with dir := .released, seq := .ack i, acks := s.acks.tail,
                 timeUs := s.timeUs + 21600 + ackWaitUs (s.envAckAt 0),
                 hist := s.hist ++ blockEvents n i s.timeUs b (s.envAckAt 0) } := by
  have hd : (sendBlock n i b s).dir = .released := by rw [sendBlock_eq]
  have ha : (sendBlock n i b s).envAckAt 0 = s.envAckAt 0 := by rw [sendBlock_eq]; rfl
  refine ⟨by rw [(ackSteps_released hd).1, ha], ?_⟩
  rw [(ackSteps_released hd).2, ha, sendBlock_eq]
  simp [blockEvents]

/-- The block loop in closed form: it ends at the first NACK or after the last block (R85, R86). -/
theorem sendBlocks_eq (n i : Nat) (bytes : List Byte) (s : State) (hd : s.dir = .released) :
    sendBlocks n i bytes s =
      { s with dir := .released, seq := .idle,
               timeUs := s.timeUs + blocksUs (s.sentBlocks bytes),
               hist := s.hist ++ blocksEvents n i s.timeUs (s.sentBlocks bytes),
               acks := s.acks.advance (s.sentBlocks bytes).length,
               result := if allAcked (s.nextAcks bytes.length) then resultOk
                 else resultNotAcknowledged (i + blocksSent (s.nextAcks bytes.length) - 1) } := by
  induction bytes generalizing i s with
  | nil => simp [sendBlocks, State.endTransmit, State.setSeq, blocksUs, blocksEvents, State.nextAcks_zero, allAcked, hd]
  | cons b rest ih =>
    obtain ⟨ho, hs⟩ := ackSteps_sendBlock n i b s
    rw [sendBlocks, ho, List.length_cons, State.nextAcks_succ]
    cases h : s.envAckAt 0 with
    | nack =>
      simp [hs, h, State.sentBlocks_nack h, State.endTransmit, blocksUs, blocksEvents, blocksSent, allAcked, Nat.add_assoc]
    | ack e =>
      have hacks : (ackSteps (sendBlock n i b s)).acks = s.askedAck.acks := by rw [hs, State.askedAck_acks]
      simp only
      rw [ih (i + 1) _ (by rw [hs]), State.sentBlocks_ack h, State.sentBlocks_congr hacks,
        State.nextAcks_congr hacks, hs, h]
      simp only [blocksUs, blocksEvents, blocksSent, allAcked, List.length_cons, Oracle.advance_succ,
        List.append_assoc, Nat.add_assoc, Nat.add_comm 1, blockUs]
      rfl

/-- TRANSMIT from its bus-free check on, once the wire reads High, in closed form (R80 to R86). -/
theorem transmitFrame_high {bytes : List Byte} {s : State} (hd : s.dir = .released) (hl : s.envLevelNow = .high) :
    transmitFrame bytes s =
      { s with dir := .released, seq := .idle,
               timeUs := s.timeUs + 4500 + blocksUs (s.sentBlocks bytes),
               hist := s.hist ++ ([.sample s.timeUs .high] ++ pulseEvents s.timeUs 3700 ++
                 blocksEvents bytes.length 0 (s.timeUs + 4500) (s.sentBlocks bytes)),
               levels := s.levels.tail, acks := s.acks.advance (s.sentBlocks bytes).length,
               result := if allAcked (s.nextAcks bytes.length) then resultOk
                 else resultNotAcknowledged (blocksSent (s.nextAcks bytes.length) - 1) } := by
  obtain ⟨h1, h2⟩ := State.lineLevel_released hd
  have hc : busFreeCheck s = s.askedLevel.record (.sample s.timeUs .high) := by rw [busFreeCheck, h1, h2, hl]
  have hu := startSteps_eq ((s.askedLevel.record (.sample s.timeUs .high)).setSeq .start)
  have hacks := congrArg State.acks hu
  rw [transmitFrame, h1, hl, hc]
  simp only
  rw [sendBlocks_eq _ _ _ _ (by rw [hu]), State.sentBlocks_congr (t := s) hacks,
    State.nextAcks_congr (t := s) hacks, hu]
  simp

/-- TRANSMIT from its bus-free check on, where the wire reads Low: one sample and BUS_BUSY (R80). -/
theorem transmitFrame_low {bytes : List Byte} {s : State} (hl : s.lineLevel = .low) :
    transmitFrame bytes s =
      { s.afterLineLevel with hist := s.hist ++ [.sample s.timeUs .low], result := resultBusBusy, seq := .idle } := by
  rw [transmitFrame, hl, busFreeCheck, hl, State.afterLineLevel_eq]
  rfl

/-- The frame of a legal length whose cells are all written can be read. -/
theorem Memory.readFrame_of_ready {m : Memory} {n : Nat} (h : ∀ i, i < n → (m.read i).isSome) :
    ∃ bytes : List Byte, bytes.length = n ∧ m.readFrame n = .ok bytes := by
  cases hr : m.readFrame n with
  | ok bytes => exact ⟨bytes, (Memory.readFrom_ok.1 hr).1, rfl⟩
  | error j =>
    obtain ⟨_, h2, h3, _⟩ := Memory.readFrom_error.1 hr
    have := h j (by omega)
    simp [h3] at this

/-- What TRANSMIT can do, said once (R77). -/
theorem execTransmit_cases (n : BitVec 5) (s : State) :
    ((n.toNat = 0 ∨ 16 < n.toNat) ∧ execTransmit n s = .next ((s.setSeq .check).endTransmit resultInvalidLength)) ∨
    (1 ≤ n.toNat ∧ n.toNat ≤ 16 ∧
      ((∃ i, i < n.toNat ∧ s.fb.read i = none ∧ (∀ k, k < i → (s.fb.read k).isSome) ∧
          execTransmit n s = .fault (.unwrittenFrameByte i)) ∨
        ∃ bytes, bytes.length = n.toNat ∧ s.fb.readFrame n.toNat = .ok bytes ∧
          execTransmit n s = .next (transmitFrame bytes (s.setSeq .check)))) := by
  unfold execTransmit frameLength
  by_cases hl : lengthLegal n.toNat
  · have hl' := (lengthLegal_iff _).1 hl
    refine .inr ⟨hl'.1, hl'.2, ?_⟩
    rw [if_pos hl]
    cases hr : s.fb.readFrame n.toNat with
    | error i =>
      obtain ⟨_, h2, h3, h4⟩ := Memory.readFrom_error.1 hr
      exact .inl ⟨i, by omega, h3, fun k hk => h4 k (Nat.zero_le k) hk, rfl⟩
    | ok bytes => exact .inr ⟨bytes, (Memory.readFrom_ok.1 hr).1, rfl, rfl⟩
  · refine .inl ⟨?_, by rw [if_neg hl]⟩
    rw [lengthLegal_iff] at hl
    omega
end Sys2Proof.Machine
end

