-- ==== Sys2Proof/Tests/Slice0.lean ====
section
/-! SUPPORT. The model's own tests. Expected values are those of 95_test_vectors.md (ids in the docstrings) or are
worked out by hand from the rule named. After them, for every obligation with hypotheses, a theorem
`test_witness_…` with a concrete state and operands that meet them, one for each clause that has its own. -/

namespace Sys2Proof.Tests

open Sys2Proof Sys2Proof.Machine Sys2Proof.Config

/-! ### What the assembler refuses and accepts (30_encoding.md R57, R58) -/

theorem test_illFormed_sendBit : (AsmLine.sendBit 2).wellFormed = false := by decide
theorem test_illFormed_loadFb_index : (AsmLine.loadFb 16 0).wellFormed = false := by decide
theorem test_illFormed_loadFb_value : (AsmLine.loadFb 0 256).wellFormed = false := by decide
theorem test_illFormed_transmit : (AsmLine.transmit 32).wellFormed = false := by decide
theorem test_illFormed_rawWord : (AsmLine.rawWord 0x10000).wellFormed = false := by decide
theorem test_illFormed_sendByte : (AsmLine.sendByte 256).wellFormed = false := by decide
theorem test_illFormed_frame_empty : (AsmLine.frame []).wellFormed = false := by decide
theorem test_illFormed_frame_long : (AsmLine.frame (List.replicate 17 0)).wellFormed = false := by decide
theorem test_illFormed_frame_byte : (AsmLine.frame [0, 256]).wellFormed = false := by decide
theorem test_illFormed_poll_initiator : (AsmLine.poll 16 0).wellFormed = false := by decide
theorem test_illFormed_poll_destination : (AsmLine.poll 0 16).wellFormed = false := by decide

theorem test_wellFormed_bounds :
    (AsmLine.sendBit 1).wellFormed = true ∧ (AsmLine.loadFb 15 255).wellFormed = true ∧
    (AsmLine.transmit 31).wellFormed = true ∧ (AsmLine.rawWord 0xFFFF).wellFormed = true ∧
    (AsmLine.sendByte 255).wellFormed = true ∧ (AsmLine.frame (List.replicate 16 255)).wellFormed = true ∧
    (AsmLine.poll 15 15).wellFormed = true := by decide

/-- W3: QueryPower at local address 4 is the frame `40 8F`, words 0x4006 0x8F16 0x0027. -/
theorem test_assemble_queryPower : assemble (.frame [0x40, 0x8F]) = some [0x4006, 0x8F16, 0x0027] := by decide

/-- W3: the poll of destination 0xE from address 4. -/
theorem test_assemble_poll : assemble (.poll 4 0xE) = some [0x4E06, 0x0017] := by decide

/-! ### Decoding: words written out bit by bit from the table of R49 (V-DEC) -/

theorem test_decode_release : decode 0b0000000000000000 = .command .release := by decide
theorem test_decode_assert : decode 0b0000000000000001 = .command .assert := by decide
theorem test_decode_sample : decode 0b0000000000000010 = .command .sample := by decide
theorem test_decode_sendStart : decode 0b0000000000000011 = .command .sendStart := by decide
theorem test_decode_sendBit_zero : decode 0b0000000000000100 = .command (.sendBit 0) := by decide
theorem test_decode_sendBit_one : decode 0b0000000000010100 = .command (.sendBit 1) := by decide
theorem test_decode_waitAck : decode 0b0000000000000101 = .command .waitAck := by decide
/-- VAL = 10001111, IDX = 0001. -/
theorem test_decode_loadFb : decode 0b1000111100010110 = .command (.loadFb 1 0x8F) := by decide
/-- N = 10000. -/
theorem test_decode_transmit : decode 0b0000000100000111 = .command (.transmit 16) := by decide
theorem test_decode_reserved_op : decode 0x0008 = .illegal .reservedOpcode ∧ decode 0xFFFF = .illegal .reservedOpcode := by
  decide
theorem test_decode_reserved_bit :
    decode 0x0010 = .illegal .reservedBitSet ∧ decode 0x8000 = .illegal .reservedBitSet ∧
    decode 0x0015 = .illegal .reservedBitSet ∧ decode 0x0024 = .illegal .reservedBitSet ∧
    decode 0x0207 = .illegal .reservedBitSet := by decide
/-- The host's question in table bits: the V bit of SEND_BIT is bit 4 of the word. -/
theorem test_decodeTableWord : decodeTableWord 16 0x0014 = some (.sendBit 1) ∧ decodeTableWord 16 0x0008 = none := by
  decide

/-! ### Small states -/

/-- Right after `assert` at time 0: DIR = Asserted since `D(0,A)`. -/
def assertedState : State := { State.reset with dir := .asserted, hist := [.drive 0 .asserted], result := 0x0001 }

/-- A frame buffer that holds `bytes` from cell 0 on. -/
def buffer (bytes : List Byte) : Memory := bytes.zipIdx.map fun x => (x.2, x.1)

/-- The bytes 0 to 15. -/
def sixteenBytes : List Byte := (List.range 16).map (BitVec.ofNat 8)

/-- Reset with `bytes` loaded, the environment answering `lvl` and then `answers`. -/
def frameState (bytes : List Byte) (lvl : Level) (answers : List AckAnswer) : State :=
  { State.reset with fb := buffer bytes, levels := ⟨[lvl], 0⟩, acks := ⟨answers, 0⟩ }

/-- Reset with one move of the host listed. -/
def moveState (m : HostMove) : State := { State.reset with moves := ⟨[m], 0⟩ }

theorem assertedState_inv : assertedState.Inv :=
  ⟨rfl, rfl, by decide, ⟨by unfold assertedState; decide, by unfold assertedState; decide⟩, rfl⟩

theorem moveState_inv (m : HostMove) : (moveState m).Inv :=
  ⟨rfl, rfl, (by decide : resultLegal 0 = true), ⟨(by decide : ([] : List Nat).Pairwise (· ≤ ·)), by
    intro e h; cases h⟩, rfl⟩

/-! ### One step of each command -/

/-- LD1. -/
theorem test_release_at_reset :
    exec .release State.reset = .next { State.reset with hist := [.drive 0 .released], result := 0x0001 } := rfl

/-- LD7: RELEASE clears LEVEL. -/
theorem test_release_clears_level :
    (stateOf? (exec .release { State.reset with result := 0x0101 })).map State.result = some 0x0001 := by decide

/-- LD2. -/
theorem test_assert_at_reset : exec .assert State.reset = .next assertedState := rfl

/-- LD6: a redundant ASSERT records its event. -/
theorem test_assert_again :
    (stateOf? (exec .assert { assertedState with timeUs := 50 })).map (fun s => (s.dir, s.hist)) =
      some (.asserted, [.drive 0 .asserted, .drive 50 .asserted]) := by decide

/-- LD3. -/
theorem test_sample_high :
    (stateOf? (exec .sample { State.reset with timeUs := 50, levels := ⟨[.high], 0⟩ })).map
      (fun s => (s.result, s.dir, s.timeUs, s.hist)) = some (0x0101, .released, 50, [.sample 50 .high]) := by decide

/-- LD5: the block's own low; the environment is not asked. -/
theorem test_sample_own_low :
    (stateOf? (exec .sample { assertedState with timeUs := 50, levels := ⟨[.high], 0⟩ })).map
      (fun s => (s.result, s.dir, s.levels, s.hist)) =
      some (0x0001, .asserted, ⟨[.high], 0⟩, [.drive 0 .asserted, .sample 50 .low]) := by decide

/-- BE1. -/
theorem test_sendStart :
    (stateOf? (exec .sendStart State.reset)).map (fun s => (s.result, s.dir, s.timeUs, s.hist)) =
      some (0x0001, .released, 4500, [.drive 0 .asserted, .drive 3700 .released]) := by decide

/-- R68's corner case: begun 100 µs after an ASSERT, the wire is low from 0 to 3800. -/
theorem test_sendStart_while_asserted :
    (stateOf? (exec .sendStart { assertedState with timeUs := 100 })).map (fun s => lowPulses s.hist) =
      some [(0, 3800)] := by decide

/-- BE3. -/
theorem test_sendBit_one :
    (stateOf? (exec (.sendBit 1) { State.reset with timeUs := 4500 })).map (fun s => (s.result, s.timeUs, s.hist)) =
      some (0x0001, 6900, [.drive 4500 .asserted, .drive 5100 .released]) := by decide

/-- BE4: the wire is low for 1600 µs, from 0 to 1600. -/
theorem test_sendBit_while_asserted :
    (stateOf? (exec (.sendBit 0) { assertedState with timeUs := 100 })).map
      (fun s => (s.timeUs, s.hist, lowPulses s.hist)) =
      some (2500, [.drive 0 .asserted, .drive 100 .asserted, .drive 1600 .released], [(0, 1600)]) := by decide

/-- BE6: the last moment of the window. -/
theorem test_waitAck_last_moment :
    (stateOf? (exec .waitAck { State.reset with timeUs := 26100, acks := ⟨[.ack 2000], 0⟩ })).map
      (fun s => (s.result, s.timeUs, s.hist)) = some (0x0201, 28100, [.ackWait 26100 (.ack 2000)]) := by decide

/-- BE8 and BE7: the block's own low is an ACK at once; else a NACK takes 2000 µs. -/
theorem test_waitAck_own_low_and_nack :
    (stateOf? (exec .waitAck { assertedState with timeUs := 10 })).map (fun s => (s.result, s.timeUs, s.dir)) =
      some (0x0201, 10, .asserted) ∧
    (stateOf? (exec .waitAck { State.reset with timeUs := 26100, acks := ⟨[.nack], 0⟩ })).map
      (fun s => (s.result, s.timeUs)) = some (0x0001, 28100) := by decide

/-- FT2. -/
theorem test_loadFb_last_cell :
    (stateOf? (exec (.loadFb 15 0xFF) State.reset)).map (fun s => (s.fb, s.result, s.hist)) =
      some ([(15, 0xFF)], 0x0001, []) := by decide

/-- R76: a LOAD_FB overwrites an earlier value of the same cell and touches no other. -/
theorem test_loadFb_overwrites :
    (stateOf? (exec (.loadFb 1 0x8F) { State.reset with fb := [(0, 0x40), (1, 0x36), (3, 0x00)] })).map State.fb =
      some [(0, 0x40), (1, 0x8F), (3, 0x00)] := by decide

/-- FT10 with W-wave: every event of the poll `40`. -/
theorem test_transmit_poll_wave :
    (stateOf? (exec (.transmit 1) (frameState [0x40] .high [.ack 0]))).map
      (fun s => (s.result, s.timeUs, s.dir, s.seq, s.hist)) =
    some (0x0001, 26100, .released, .idle,
      [.sample 0 .high, .drive 0 .asserted, .drive 3700 .released,
       .drive 4500 .asserted, .drive 6000 .released, .drive 6900 .asserted, .drive 7500 .released,
       .drive 9300 .asserted, .drive 10800 .released, .drive 11700 .asserted, .drive 13200 .released,
       .drive 14100 .asserted, .drive 15600 .released, .drive 16500 .asserted, .drive 18000 .released,
       .drive 18900 .asserted, .drive 20400 .released, .drive 21300 .asserted, .drive 22800 .released,
       .drive 23700 .asserted, .drive 24300 .released, .drive 26100 .released, .ackWait 26100 (.ack 0)]) := by
  decide

/-- FT14: fifteen blocks acknowledged, block 15 not. -/
theorem test_transmit_last_nack :
    (stateOf? (exec (.transmit 16) (frameState sixteenBytes .high (List.replicate 15 (.ack 0) ++ [.nack])))).map
      (fun s => (s.result, s.timeUs, driveCount s.hist)) = some (0x00F3, 352100, 306) := by decide +kernel

/-- PR3: a reserved bit is found before the empty frame buffer is looked at. -/
theorem test_illegal_before_fault :
    step (State.reset.withFetchWord 16 0x0207) = .next { State.reset with result := 0x0005 } := rfl

/-! ### Witnesses: states and operands that meet the hypotheses of the obligations -/

theorem reset_inv : State.reset.Inv :=
  ⟨rfl, rfl, by decide, ⟨by decide, by intro e h; cases h⟩, rfl⟩

/-- A frame buffer of one byte, and one of sixteen, are ready for their frames and for no longer one. -/
theorem test_frameReady :
    (frameState [0x40] .high []).frameReady 1 ∧ ¬ (frameState [0x40] .high []).frameReady 2 ∧
    (frameState sixteenBytes .high []).frameReady 16 := by
  unfold State.frameReady
  decide

theorem test_witness_ResetPutsEveryPieceOfStateInPlace : assertedState.resetBlock = State.reset := rfl

theorem test_witness_ResetOnlyBetweenCommands :
    ((moveState .reset).seq = .idle ∧ (moveState .reset).cmd = none ∧ (moveState .reset).nextMove = .reset) ∧
    (moveState (.issueCutByReset 7)).seq = .idle ∧ (moveState (.issueCutByReset 7)).cmd = none ∧
    (moveState (.issueCutByReset 7)).nextMove = .issueCutByReset 7 := by decide

theorem test_witness_ReleaseStopsDrivingTheWire :
    State.reset.Inv ∧ State.reset.dir = .released ∧ ∃ t, exec .release State.reset = .next t :=
  ⟨reset_inv, rfl, _, rfl⟩

/-- The redundant ASSERT; then a command that keeps the wire low and each that does not. -/
theorem test_witness_AssertPullsTheWireLow :
    assertedState.Inv ∧ assertedState.dir = .asserted ∧ (∃ t, exec .assert assertedState = .next t) ∧
    (∃ t, exec .sample assertedState = .next t ∧ t.dir = .asserted) ∧
    (∃ t, exec .release assertedState = .next t ∧ t.dir = .released) ∧
    (∃ t, exec .sendStart assertedState = .next t ∧ t.dir = .released) ∧
    ∃ t, exec (.sendBit 1) assertedState = .next t ∧ t.dir = .released :=
  ⟨assertedState_inv, rfl, ⟨_, rfl⟩, ⟨_, rfl, rfl⟩, ⟨_, rfl, rfl⟩, ⟨_, rfl, rfl⟩, ⟨_, rfl, rfl⟩⟩

/-- FT9, at the least and the greatest legal length. -/
theorem test_witness_AssertPullsTheWireLow_transmit :
    ({ assertedState with fb := buffer [0x40] } : State).frameReady (1 : BitVec 5).toNat ∧
    ({ assertedState with fb := buffer sixteenBytes } : State).frameReady (16 : BitVec 5).toNat ∧
    (stateOf? (exec (.transmit 1) { assertedState with fb := buffer [0x40] })).map
      (fun t => (t.result, t.dir, t.hist)) = some (0x0002, .asserted, [.drive 0 .asserted, .sample 0 .low]) := by
  unfold State.frameReady
  decide

theorem test_witness_LineLevelIsTheWiredCombination :
    assertedState.dir = .asserted ∧ State.reset.dir = .released := ⟨rfl, rfl⟩

theorem test_witness_SampleReadsTheLevelOfTheWire :
    assertedState.dir = .asserted ∧ (frameState [] .high []).dir = .released ∧
    (frameState [] .high []).envLevelNow = .high ∧ (frameState [] .low []).envLevelNow = .low :=
  ⟨rfl, rfl, rfl, rfl⟩

/-- The first and the last microsecond of the low phase. -/
theorem test_witness_SendStartSendsTheStartBit :
    assertedState.Inv ∧ assertedState.dir = .asserted ∧
    ∃ t, exec .sendStart assertedState = .next t ∧ driveAt t.hist 0 = .asserted ∧ driveAt t.hist 3699 = .asserted ∧
      driveAt t.hist 3700 = .released :=
  ⟨assertedState_inv, rfl, _, rfl, rfl, rfl, rfl⟩

theorem test_witness_SendBitSendsOneDataBit :
    (∃ t, exec (.sendBit 0) assertedState = .next t ∧ driveAt t.hist 1499 = .asserted ∧
      driveAt t.hist 1500 = .released) ∧
    (∃ t, exec (.sendBit 1) assertedState = .next t ∧ driveAt t.hist 599 = .asserted ∧
      driveAt t.hist 600 = .released) ∧
    (0x0024 : Word).toNat % 16 = 4 ∧ 32 ≤ (0x0024 : Word).toNat ∧
    (0xFFF4 : Word).toNat % 16 = 4 ∧ 32 ≤ (0xFFF4 : Word).toNat :=
  ⟨⟨_, rfl, rfl, rfl⟩, ⟨_, rfl, rfl, rfl⟩, by decide⟩

theorem test_witness_WaitAckWaitsForAnAcknowledgement :
    assertedState.dir = .asserted ∧
    ((frameState [] .high [.ack 0]).dir = .released ∧ (frameState [] .high [.ack 0]).envAckAt 0 = .ack 0) ∧
    (frameState [] .high [.ack 2000]).envAckAt 0 = .ack 2000 ∧ (frameState [] .high [.nack]).envAckAt 0 = .nack := by
  decide

theorem test_witness_TheLowPhaseCarriesTheSymbol :
    (∃ t, exec (.sendBit 0) State.reset = .next t) ∧ (∃ t, exec (.sendBit 1) State.reset = .next t) ∧
    ∃ t, exec .sendStart State.reset = .next t :=
  ⟨⟨_, rfl⟩, ⟨_, rfl⟩, ⟨_, rfl⟩⟩

theorem test_witness_BitEngineDoesNotWatchTheWire :
    (∃ i : Instr, i = .sendStart) ∧ ∃ (i : Instr) (v : BitVec 1), i = .sendBit v :=
  ⟨⟨_, rfl⟩, _, 1, rfl⟩

/-- Two states that differ in FB, RESULT and the history. -/
theorem test_witness_TheBitEngineKeepsNoContext :
    State.reset.dir = ({ State.reset with fb := buffer [0x40], result := 5, hist := [.drive 0 .released] } : State).dir ∧
    State.reset.timeUs = (frameState [0x40] .low []).timeUs ∧ State.reset.acks = (frameState [0x40] .low []).acks ∧
    State.reset ≠ frameState [0x40] .low [] := by decide

theorem test_witness_EveryBitAppendsTwoDrives :
    (∃ t, exec .sendStart State.reset = .next t) ∧ (∃ t, exec (.sendBit 1) State.reset = .next t) ∧
    (∃ t, exec .waitAck State.reset = .next t) ∧ ∃ t, exec .waitAck assertedState = .next t :=
  ⟨⟨_, rfl⟩, ⟨_, rfl⟩, ⟨_, rfl⟩, ⟨_, rfl⟩⟩

/-- The widest band the first clause takes, at a realized 0 bit that is 449 µs short. -/
theorem test_witness_RealizedPulsesKeepSymbolsApart :
    Symbol.realizedBy (.bit false) 449 1051 1349 = true ∧ Symbol.realizedBy (.bit true) 449 1051 1349 = false ∧
    Symbol.realizedBy .start 449 3700 800 = true := by decide

theorem test_witness_OnlyLoadFbChangesTheFrameBuffer :
    (∃ t, exec (.loadFb 15 0xFF) State.reset = .next t ∧ t.fb.read 15 ≠ State.reset.fb.read 15) ∧
    ∃ t, exec .release State.reset = .next t :=
  ⟨⟨_, rfl, by decide⟩, _, rfl⟩

/-- FT3, FT4, FT5: n = 0, 17 and 31. -/
theorem test_witness_TransmitRefusesAnIllegalLength :
    (0 : BitVec 5).toNat = 0 ∧ 16 < (17 : BitVec 5).toNat ∧ 16 < (31 : BitVec 5).toNat ∧
    (stateOf? (exec (.transmit 17) assertedState)).map State.result = some 0x0004 := by decide

/-- FT6, FT7 and PR1: the lowest unwritten cell, before the wire is looked at. -/
theorem test_witness_TransmitFaultsOnAnUnwrittenByte :
    faultOf? (exec (.transmit 1) (frameState [] .low [])) = some (.unwrittenFrameByte 0) ∧
    faultOf? (exec (.transmit 3) (frameState [0x40, 0x8F] .high [])) = some (.unwrittenFrameByte 2) ∧
    (frameState (sixteenBytes.take 15) .high []).fb.read 15 = none ∧
    (∀ k, k < 15 → ((frameState (sixteenBytes.take 15) .high []).fb.read k).isSome) := by decide

theorem test_witness_TransmitChecksTheBusOnce :
    (frameState [0x40] .low []).frameReady (1 : BitVec 5).toNat ∧ (frameState [0x40] .low []).lineLevel = .low ∧
    (frameState sixteenBytes .high []).frameReady (16 : BitVec 5).toNat ∧
    (frameState sixteenBytes .high []).lineLevel = .high := by
  unfold State.frameReady
  decide

theorem test_witness_TransmitSendsTheFrame :
    [(0x40 : Byte)].length = (1 : BitVec 5).toNat ∧ sixteenBytes.length = (16 : BitVec 5).toNat ∧
    (∀ i (h : i < sixteenBytes.length), (frameState sixteenBytes .high []).fb.read i = some sixteenBytes[i]) ∧
    (frameState sixteenBytes .high []).dir = .released ∧ (frameState sixteenBytes .high []).envLevelNow = .high ∧
    (frameState [0x40] .high []).fb.read 0 = some 0x40 := by decide

/-- FT13: n = 16, every ACK at the last moment. -/
theorem test_witness_AFrameAckedThroughoutSucceeds :
    (frameState sixteenBytes .high (List.replicate 16 (.ack 2000))).frameReady (16 : BitVec 5).toNat ∧
    (∀ i, i < (16 : BitVec 5).toNat →
      (frameState sixteenBytes .high (List.replicate 16 (.ack 2000))).envAckAt i = .ack 2000) ∧
    (stateOf? (exec (.transmit 16) (frameState sixteenBytes .high (List.replicate 16 (.ack 2000))))).map
      (fun t => (t.result, t.timeUs)) = some (0x0001, 382100) := by
  unfold State.frameReady
  decide +kernel

/-- FT15 (k = 0) and FT14 (k = 15). -/
theorem test_witness_TheFirstNackEndsTheFrame :
    ((frameState [0x40, 0x8F] .high [.nack]).frameReady (2 : BitVec 5).toNat ∧
      (frameState [0x40, 0x8F] .high [.nack]).envAckAt 0 = .nack ∧
      (stateOf? (exec (.transmit 2) (frameState [0x40, 0x8F] .high [.nack]))).map
        (fun t => (t.result, t.timeUs, driveCount t.hist)) = some (0x0003, 28100, 21)) ∧
    (∀ i, i < 15 → (frameState sixteenBytes .high (List.replicate 15 (.ack 0) ++ [.nack])).envAckAt i = .ack 0) ∧
    (frameState sixteenBytes .high (List.replicate 15 (.ack 0) ++ [.nack])).envAckAt 15 = .nack := by
  unfold State.frameReady
  decide +kernel

/-- A frame of two bytes: its states meet the hypotheses and its wave carries start, 0x40, EOM 0, 0x8F, EOM 1. -/
theorem test_witness_TheWaveformCarriesTheFrame :
    (∀ i (h : i < [(0x40 : Byte), 0x8F].length),
      (frameState [0x40, 0x8F] .high [.ack 0, .ack 0]).fb.read i = some [(0x40 : Byte), 0x8F][i]) ∧
    (stateOf? (exec (.transmit 2) (frameState [0x40, 0x8F] .high [.ack 0, .ack 0]))).map (fun t => symbolsOf t.hist) =
      some ((.start :: [false, true, false, false, false, false, false, false, false, true, false, false, false,
        true, true, true, true, true].map Symbol.bit).map some) := by decide +kernel

theorem test_witness_APollTellsWhetherADeviceAnswers :
    (frameState [0x4F] .high [.ack 300]).fb.read 0 = some 0x4F ∧ (frameState [0x4F] .high [.ack 300]).dir = .released ∧
    (frameState [0x4F] .high [.ack 300]).envLevelNow = .high ∧
    (frameState [0x4F] .high [.ack 300]).envAckAt 0 = .ack 300 ∧ (frameState [0x4F] .high [.nack]).envAckAt 0 = .nack := by
  decide

theorem test_witness_TransmitIsIndifferentToTheBytes :
    (frameState [0x40] .high [.ack 0]).frameReady (1 : BitVec 5).toNat ∧
    (∀ i, i < (1 : BitVec 5).toNat → ((buffer [0xFF]).read i).isSome) ∧
    ∃ t, exec (.transmit 1) (frameState [0x40] .high [.ack 0]) = .next t :=
  ⟨by unfold State.frameReady; decide, by decide, _, rfl⟩

theorem test_witness_NoCommandLastsLongerThanTheLongestFrame : ∃ t, exec .sendStart State.reset = .next t := ⟨_, rfl⟩

/-- The host's words for the frame `40 8F`; lengths 1, 16, 0 and 17 stand where the clauses meet. -/
theorem test_witness_TheFrameProgramIsTheTransmitter :
    ((frameInstrs ([(0x40 : Byte), 0x8F].map BitVec.toNat)).map fun i => HostMove.issue (encode i)) =
      [.issue 0x4006, .issue 0x8F16, .issue 0x0027] ∧
    State.reset.seq = .idle ∧ State.reset.cmd = none ∧ sixteenBytes.length = 16 ∧ [(0 : Byte)].length = 1 ∧
    ([] : List Byte).length = 0 ∧ 16 < (List.replicate 17 (0 : Byte)).length := by decide

theorem test_witness_EveryLegalWordIsAnEncoding : decode 0xFFF6 = .command (.loadFb 15 0xFF) := by decide

theorem test_witness_MatchAndMaskSelectTheCommand :
    (0x01F7 : Word) &&& rowMask (.transmit 0) = rowMatch (.transmit 0) ∧
    (0x0014 : Word) &&& rowMask (.sendBit 0) = rowMatch (.sendBit 0) := by decide

theorem test_witness_DecodeIsTheFunctionOfR55 : (decode 0x0010).instr? = none := by decide

theorem test_witness_IllegalWordsOnlyWriteTheResult :
    decode 0x0010 = .illegal .reservedBitSet ∧ decode 0x000F = .illegal .reservedOpcode := by decide

theorem test_witness_PseudoInstructionsExpand :
    (AsmLine.sendByte 0x8F).wellFormed = true ∧
    assemble (.sendByte 0x8F) = some [0x14, 0x04, 0x04, 0x04, 0x14, 0x14, 0x14, 0x14] ∧
    (AsmLine.frame [255]).wellFormed = true ∧ (∀ b ∈ List.replicate 16 255, b ≤ 255) := by decide

theorem test_witness_AStepRunsTheDecodedInstruction :
    ({ State.reset with cmd := some 0x0003 } : State).seq = .idle ∧ decode 0x0003 = .command .sendStart ∧
    decode 0x0023 = .illegal .reservedBitSet ∧
    step (State.reset.withFetchWord 16 0x0001) = .next assertedState :=
  ⟨rfl, by decide, by decide, rfl⟩

/-- BUS_BUSY, INVALID_LENGTH, and NOT_ACKNOWLEDGED at blocks 0 and 1. -/
theorem test_witness_ErrorCodesNameTheirCauses :
    (∃ t, exec (.transmit 1) (frameState [0x40] .low []) = .next t ∧ resultCode t.result = 2) ∧
    (∃ t, exec (.transmit 0) State.reset = .next t ∧ resultCode t.result = 4) ∧
    (∃ t, exec (.transmit 1) (frameState [0x40] .high [.nack]) = .next t ∧ resultCode t.result = 3 ∧
      resultBlock t.result = 0) ∧
    ∃ t, exec (.transmit 2) (frameState [0x40, 0x8F] .high [.ack 0, .nack]) = .next t ∧ t.result = 0x0013 :=
  ⟨⟨_, rfl, rfl⟩, ⟨_, rfl, rfl⟩, ⟨_, rfl, rfl, rfl⟩, ⟨_, rfl, rfl⟩⟩

theorem test_witness_WhatAnErrorLeavesBehind :
    (∃ t, runWord 0x0008 State.reset = .next t ∧ resultCode t.result = 5) ∧
    (∃ t, runWord 0x0117 State.reset = .next t ∧ resultCode t.result = 4) ∧
    (∃ t, runWord 0x0017 (frameState [0x40] .low []) = .next t ∧ resultCode t.result = 2) ∧
    ∃ t, runWord 0x0017 (frameState [0x40] .high [.nack]) = .next t ∧ resultCode t.result = 3 :=
  ⟨⟨_, rfl, rfl⟩, ⟨_, rfl, rfl⟩, ⟨_, rfl, rfl⟩, ⟨_, rfl, rfl⟩⟩

/-- PR2 and the situations of each line of R96. -/
theorem test_witness_ErrorsAreFoundInOrder :
    decode 0x0207 = .illegal .reservedBitSet ∧ decode 0x0007 = .command (.transmit 0) ∧
    (stateOf? (runWord 0x0007 assertedState)).map State.result = some 0x0004 ∧
    decode 0x0107 = .command (.transmit 16) ∧ (frameState [] .low []).fb.read 0 = none ∧
    (frameState [0x40] .low []).frameReady 1 ∧ (frameState [0x40] .low []).lineLevel = .low ∧
    (frameState [0x40] .high [.nack]).lineLevel = .high ∧ (frameState [0x40] .high [.nack]).envAckAt 0 = .nack := by
  unfold State.frameReady
  decide

theorem test_witness_ResultIsOfTheLastCommandAlone :
    (∃ t, runWord 0x0002 (frameState [] .high []) = .next t ∧ resultLevel t.result = true) ∧
    ∃ t, runWord 0x0005 (frameState [] .high [.ack 0]) = .next t ∧ resultAcked t.result = true :=
  ⟨⟨_, rfl, rfl⟩, ⟨_, rfl, rfl⟩⟩

theorem test_witness_DurationOfEachCommand :
    (∃ t, exec .sendStart State.reset = .next t) ∧ (∃ t, exec (.sendBit 0) State.reset = .next t) ∧
    (∃ t, exec (.transmit 1) (frameState [0x40] .high [.ack 0]) = .next t) ∧
    decode 0x0008 = .illegal .reservedOpcode ∧ ∃ t, runWord 0x0008 State.reset = .next t :=
  ⟨⟨_, rfl⟩, ⟨_, rfl⟩, ⟨_, rfl⟩, by decide, _, rfl⟩

theorem test_witness_EveryWriteOfDirIsRecorded :
    ∃ t, exec .assert assertedState = .next t ∧ drivesOf t.hist = [(0, .asserted), (0, .asserted)] := ⟨_, rfl, rfl⟩

theorem test_witness_SideEffectsAndIdempotence :
    (∃ t u, exec .assert State.reset = .next t ∧ exec .assert t = .next u) ∧
    (∃ t, exec (.loadFb 0 0) State.reset = .next t) ∧ ∃ t, exec .sample assertedState = .next t :=
  ⟨⟨_, _, rfl, rfl⟩, ⟨_, rfl⟩, ⟨_, rfl⟩⟩

theorem test_witness_FrameOfTheWireCommands :
    (∃ t, exec .sample State.reset = .next t) ∧ (∃ t, exec .waitAck State.reset = .next t) ∧
    ∃ t, exec (.sendBit 1) State.reset = .next t :=
  ⟨⟨_, rfl⟩, ⟨_, rfl⟩, ⟨_, rfl⟩⟩

theorem test_witness_FrameOfLoadFb : ∃ t, exec (.loadFb 15 0xFF) State.reset = .next t := ⟨_, rfl⟩

theorem test_witness_FrameOfTransmit :
    ∃ t, exec (.transmit 1) (frameState [0x40] .high [.ack 0]) = .next t := ⟨_, rfl⟩

theorem test_witness_AnIdleStepOnlyLetsTimePass :
    (moveState (.idle 0)).nextMove = .idle 0 ∧ (moveState (.idle 100000)).nextMove = .idle 100000 ∧
    (moveState (.idle 0)).seq = .idle ∧ (moveState (.idle 0)).cmd = none ∧ assertedState.moves.scripted = [] := by
  decide

theorem test_witness_TheHostPortHoldsOneWord :
    (moveState (.issue 0xFFFF)).nextMove = .issue 0xFFFF ∧ (moveState .readResult).nextMove = .readResult ∧
    ∃ t, step { State.reset with cmd := some 0x0000 } = .next t :=
  ⟨rfl, rfl, _, rfl⟩

theorem test_witness_TimeAndHistoryOnlyGrow :
    (moveState (.idle 5)).nextMove ≠ .reset ∧ (∃ t, step (moveState (.idle 5)) = .next t) ∧
    ∃ t, step { State.reset with cmd := some 0x0003 } = .next t :=
  ⟨by decide, ⟨_, rfl⟩, _, rfl⟩

/-- Steps of a command, of an idle host and of a reset, each from a state that meets the invariant. -/
theorem test_witness_EveryStepKeepsTheInvariant :
    (moveState .reset).Inv ∧ (∃ t, step (moveState .reset) = .next t) ∧ assertedState.Inv ∧
    (∃ t, step assertedState = .next t) ∧ (∃ t, step (moveState (.issue 0x0003)) = .next t) :=
  ⟨moveState_inv _, ⟨_, rfl⟩, assertedState_inv, ⟨_, rfl⟩, ⟨_, rfl⟩⟩

theorem test_witness_OnlyTheTwoModelFaultsEndARun :
    assertedState.Inv ∧
    step (State.reset.withFetchWord 16 0x0017) = .fault (.unwrittenFrameByte 0) ∧
    step (moveState (.issueCutByReset 0x0003)) = .fault .resetDuringCommand :=
  ⟨assertedState_inv, rfl, rfl⟩

/-- The spans of a poll that is acknowledged after 300 µs: the byte 0x40 and EOM 1. -/
theorem test_witness_EveryPhaseOfACommandIsASpan :
    (stateOf? (exec (.transmit 1) (frameState [0x40] .high [.ack 300]))).map
      (spansOfCommand (frameState [0x40] .high [.ack 300])) =
      some ([.pulse 3700 800, .pulse 1500 900, .pulse 600 1800] ++ List.replicate 6 (.pulse 1500 900) ++
        [.pulse 600 1800, .drive .released, .ackWait 300]) ∧
    (stateOf? (exec .assert assertedState)).map (spansOfCommand assertedState) = some [.drive .asserted] ∧
    (stateOf? (exec .waitAck assertedState)).map (spansOfCommand assertedState) = some [.ackWait 0] := by decide +kernel

/-- R116 at its edges: each phase may be `tol` off, and the bit as a whole no more than that; an ACK wait too. -/
theorem test_witness_TheBandOfEachPhase :
    (stateOf? (exec (.sendBit 1) State.reset)).map (spansOfCommand State.reset) = some [.pulse 600 1800] ∧
    realizes 10 [.pulse 600 1800] [.pulse 610 1790] = true ∧ realizes 10 [.pulse 600 1800] [.pulse 611 1790] = false ∧
    realizes 10 [.pulse 600 1800] [.pulse 610 1801] = false ∧
    (stateOf? (exec .waitAck (frameState [] .high [.nack]))).map (spansOfCommand (frameState [] .high [.nack])) =
      some [.ackWait 2000] ∧
    realizes 10 [.ackWait 2000] [.ackWait 1990] = true ∧ realizes 10 [.ackWait 2000] [.ackWait 1989] = false := by
  decide

/-- A state that has asserted, then a step that sends a bit, one that idles and one that resets. -/
theorem test_witness_TheSpansOfARunAreItsHistory :
    assertedState.alignedWith [.drive .asserted] ∧
    (∃ t, step (assertedState.withFetchWord 16 0x0014) = .next t ∧
      stepSpans (assertedState.withFetchWord 16 0x0014) t [.drive .asserted] = [.drive .asserted, .pulse 600 1800]) ∧
    (∃ t, step (moveState (.idle 5)) = .next t ∧ stepSpans (moveState (.idle 5)) t [] = [.gap 5]) ∧
    ∃ t, step (moveState .reset) = .next t ∧ stepSpans (moveState .reset) t [.gap 5] = [] :=
  ⟨⟨rfl, rfl⟩, ⟨_, rfl, rfl⟩, ⟨_, rfl, rfl⟩, _, rfl, rfl⟩

/-- Issuing and running SEND_BIT 1 from reset: a run whose spans are one pulse. -/
theorem test_witness_ObservedWaveformsAreTheHistoryWithinTheBand :
    (moveState (.issue 0x0014)).alignedWith [] ∧
    (∃ t, core.run 2 (moveState (.issue 0x0014)) = .next t ∧ drivesOf t.hist = [(0, .asserted), (600, .released)]) ∧
    runSpans 2 (moveState (.issue 0x0014)) [] = [.pulse 600 1800] :=
  ⟨⟨rfl, rfl⟩, ⟨_, rfl, rfl⟩, rfl⟩

/-- At 449 µs a start bit, a 0 and a 1 at the edges of their bands still read as what was sent. -/
theorem test_witness_ARealizedFrameReadsBack :
    (stateOf? (exec (.transmit 1) (frameState [0x00] .high [.ack 0]))).map
      (fun t => realizes 449 (spansOfCommand (frameState [0x00] .high [.ack 0]) t)
        ([.pulse 3251 1249] ++ List.replicate 8 (.pulse 1051 1349) ++ [.pulse 1049 1800, .drive .released, .ackWait 449])) =
      some true ∧
    symbolNear 449 3251 = some .start ∧ symbolNear 449 1051 = some (.bit false) ∧
    symbolNear 449 1049 = some (.bit true) ∧ symbolNear 449 1050 = none := by decide +kernel

end Sys2Proof.Tests
end

section
/-! SUPPORT. What a command that answers a next state has done, one case per outcome, with the events it recorded
(10_state.md R15 to R24). The proofs about every command go by these cases and do not unfold `exec`. -/

namespace Sys2Proof.Machine

open Sys2Proof.Config

/-! ### The drive a list of events leaves -/

/-- The drive that events leave behind where it was `d` before them: the value of the last Drive event (R15). -/
def dirAfter (d : Direction) (ev : List Event) : Direction := ((drivesOf ev).getLast?.map Prod.snd).getD d

@[simp] theorem dirAfter_nil (d : Direction) : dirAfter d [] = d := rfl

@[simp] theorem dirAfter_append (d : Direction) (a b : List Event) :
    dirAfter d (a ++ b) = dirAfter (dirAfter d a) b := by
  rw [dirAfter, drivesOf_append, List.getLast?_append]
  cases h : (drivesOf b).getLast? <;> simp [dirAfter, h]

@[simp] theorem dirAfter_pulseEvents (d : Direction) (t low : Nat) : dirAfter d (pulseEvents t low) = .released := rfl

/-- Every block ends with the release before its ACK wait (R84). -/
@[simp] theorem dirAfter_blockEvents (d : Direction) (n i t : Nat) (b : Byte) (o : AckAnswer) :
    dirAfter d (blockEvents n i t b o) = .released := by
  rw [blockEvents, dirAfter_append]
  rfl

@[simp] theorem dirAfter_blocksEvents (n i t : Nat) (l : List (Byte × AckAnswer)) :
    dirAfter .released (blocksEvents n i t l) = .released := by
  induction l generalizing i t with
  | nil => rfl
  | cons x l ih => rw [blocksEvents, dirAfter_append, dirAfter_blockEvents, ih]

/-- At a time no event is later than, the drive is the one the events leave (R25). -/
theorem foldl_driveStep_eq_dirAfter {ev : List Event} {τ : Nat} (hev : ∀ e ∈ ev, e.time ≤ τ) (d : Direction) :
    ev.foldl (driveStep τ) d = dirAfter d ev := by
  induction ev generalizing d with
  | nil => rfl
  | cons e ev ih =>
    have he : driveStep τ d e = dirAfter d [e] := by
      have := hev e (List.mem_cons_self ..)
      cases e with
      | drive t d' => exact if_pos this
      | sample => rfl
      | ackWait => rfl
    rw [List.foldl_cons, ih fun x hx => hev x (List.mem_cons_of_mem _ hx), he, ← dirAfter_append,
      List.singleton_append]

/-! ### The outcomes of a command -/

/-- `Completes s i ev t`: command `i`, run in `s`, has recorded the events `ev` and left the state `t`. -/
inductive Completes (s : State) : Instr → List Event → State → Prop
  | release : Completes s .release [.drive s.timeUs .released]
      { s with dir := .released, hist := s.hist ++ [.drive s.timeUs .released], result := resultOk }
  | assert : Completes s .assert [.drive s.timeUs .asserted]
      { s with dir := .asserted, hist := s.hist ++ [.drive s.timeUs .asserted], result := resultOk }
  | sample : Completes s .sample [.sample s.timeUs s.lineLevel]
      { s with levels := s.afterLineLevel.levels, hist := s.hist ++ [.sample s.timeUs s.lineLevel],
               result := resultSample s.lineLevel }
  | sendStart : Completes s .sendStart (pulseEvents s.timeUs 3700)
      { s with dir := .released, timeUs := s.timeUs + 4500, hist := s.hist ++ pulseEvents s.timeUs 3700,
               result := resultOk }
  | sendBit (v : BitVec 1) : Completes s (.sendBit v) (pulseEvents s.timeUs (lowUs (bitOperand v)))
      { s with dir := .released, timeUs := s.timeUs + 2400,
               hist := s.hist ++ pulseEvents s.timeUs (lowUs (bitOperand v)), result := resultOk }
  | waitAck : Completes s .waitAck [.ackWait s.timeUs s.ackOutcome]
      { s with timeUs := s.timeUs + ackWaitUs s.ackOutcome, acks := s.afterAckOutcome.acks,
               hist := s.hist ++ [.ackWait s.timeUs s.ackOutcome], result := resultWaitAck s.ackOutcome }
  | loadFb (idx : BitVec 4) (val : BitVec 8) : Completes s (.loadFb idx val) []
      { s with fb := s.fb.write (cellIndex idx) val, result := resultOk }
  | invalidLength (n : BitVec 5) (hn : n.toNat = 0 ∨ 16 < n.toNat) : Completes s (.transmit n) []
      { s with seq := .idle, result := resultInvalidLength }
  | busBusy (n : BitVec 5) (h1 : 1 ≤ n.toNat) (h16 : n.toNat ≤ 16) (hr : s.frameReady n.toNat)
      (hl : s.lineLevel = .low) : Completes s (.transmit n) [.sample s.timeUs .low]
      { s with seq := .idle, levels := s.afterLineLevel.levels, hist := s.hist ++ [.sample s.timeUs .low],
               result := resultBusBusy }
  | frame (n : BitVec 5) (bytes : List Byte) (h1 : 1 ≤ n.toNat) (h16 : n.toNat ≤ 16)
      (hb : s.fb.readFrame n.toNat = .ok bytes) (hd : s.dir = .released) (hl : s.envLevelNow = .high) :
      Completes s (.transmit n)
      ([.sample s.timeUs .high] ++ pulseEvents s.timeUs 3700 ++
        blocksEvents n.toNat 0 (s.timeUs + 4500) (s.sentBlocks bytes))
      { s with seq := .idle, timeUs := s.timeUs + 4500 + blocksUs (s.sentBlocks bytes),
               levels := s.levels.tail, acks := s.acks.advance (s.sentBlocks bytes).length,
               hist := s.hist ++ ([.sample s.timeUs .high] ++ pulseEvents s.timeUs 3700 ++
                 blocksEvents n.toNat 0 (s.timeUs + 4500) (s.sentBlocks bytes)),
               result := if allAcked (s.nextAcks n.toNat) then resultOk
                 else resultNotAcknowledged (blocksSent (s.nextAcks n.toNat) - 1) }

/-- Reading the wire does not look at SEQ (R61). -/
theorem State.afterLineLevel_setSeq (s : State) (q : SeqPos) :
    (s.setSeq q).afterLineLevel = s.afterLineLevel.setSeq q := by
  obtain ⟨dir, _⟩ := s
  cases dir <;> rfl

/-- Waiting for an ACK changes at most the environment's list of answers (R70). -/
theorem State.afterAckOutcome_eq (s : State) : s.afterAckOutcome = { s with acks := s.afterAckOutcome.acks } := by
  obtain ⟨dir, _⟩ := s
  cases dir <;> rfl

/-- Where the wire reads High, the block is released and the environment has answered High (R61). -/
theorem State.released_of_lineLevel_high {s : State} (h : s.lineLevel = .high) :
    s.dir = .released ∧ s.envLevelNow = .high := by
  cases hd : s.dir with
  | asserted => simp [(State.lineLevel_asserted hd).1] at h
  | released => exact ⟨rfl, (State.lineLevel_released hd).1 ▸ h⟩

/-- A frame that can be read has all its cells written. -/
theorem State.frameReady_of_readFrame {s : State} {n : Nat} {bytes : List Byte} (h : s.fb.readFrame n = .ok bytes) :
    s.frameReady n := by
  obtain ⟨hlen, hcells⟩ := Memory.readFrom_ok.1 h
  intro i hi
  have := hcells i (by omega)
  rw [Nat.zero_add] at this
  simp [this]

/-- A TRANSMIT whose length and cells have been checked ends in BUS_BUSY or sends the frame (R80, R81). -/
theorem transmitFrame_completes (n : BitVec 5) (bytes : List Byte) (s : State) (h1 : 1 ≤ n.toNat)
    (h16 : n.toNat ≤ 16) (hb : s.fb.readFrame n.toNat = .ok bytes) :
    ∃ ev, Completes s (.transmit n) ev (transmitFrame bytes (s.setSeq .check)) := by
  cases hl : s.lineLevel with
  | low =>
    rw [transmitFrame_low (s := s.setSeq .check) hl, State.afterLineLevel_setSeq, State.afterLineLevel_eq]
    exact ⟨_, .busBusy n h1 h16 (State.frameReady_of_readFrame hb) hl⟩
  | high =>
    obtain ⟨hd, he⟩ := State.released_of_lineLevel_high hl
    have hlen : bytes.length = n.toNat := (Memory.readFrom_ok.1 hb).1
    have hacks : (s.setSeq .check).acks = s.acks := rfl
    rw [transmitFrame_high (s := s.setSeq .check) hd he, State.sentBlocks_congr hacks, State.nextAcks_congr hacks,
      hlen, ← hd]
    exact ⟨_, .frame n bytes h1 h16 hb hd he⟩

/-- A command that answers a next state ends in one of the outcomes of `Completes`. -/
theorem exec_completes {i : Instr} {s t : State} (h : exec i s = .next t) : ∃ ev, Completes s i ev t := by
  cases i with
  | release =>
    cases h
    exact ⟨_, .release⟩
  | assert =>
    cases h
    exact ⟨_, .assert⟩
  | sample =>
    cases h
    rw [State.afterLineLevel_eq]
    exact ⟨_, .sample⟩
  | sendStart =>
    cases h
    rw [startSteps_eq]
    exact ⟨_, .sendStart⟩
  | sendBit v =>
    cases h
    rw [bitSteps_eq]
    exact ⟨_, .sendBit v⟩
  | waitAck =>
    cases h
    rw [ackSteps, State.afterAckOutcome_eq]
    exact ⟨_, .waitAck⟩
  | loadFb idx val =>
    cases h
    exact ⟨_, .loadFb idx val⟩
  | transmit n =>
    change execTransmit n s = .next t at h
    rcases execTransmit_cases n s with ⟨hn, he⟩ | ⟨h1, h16, ⟨k, _, _, _, he⟩ | ⟨bytes, _, hb, he⟩⟩
    · cases he.symm.trans h
      exact ⟨_, .invalidLength n hn⟩
    · cases he.symm.trans h
    · cases he.symm.trans h
      exact transmitFrame_completes n bytes s h1 h16 hb

end Sys2Proof.Machine
end

section
/-! SUPPORT. What every completed command keeps, read off the outcomes of `Completes`: fields it leaves alone, its
RESULT, its events in order of time and the drive they leave, and the spans read back from them. -/

namespace Sys2Proof.Machine

open Sys2Proof.Config

/-! ### Events in order of time -/

/-- Events in order of time, all dated from `now` to `later` (R24). -/
structure InOrderWithin (now later : Nat) (ev : List Event) : Prop where
  le : now ≤ later
  ordered : (ev.map Event.time).Pairwise (· ≤ ·)
  inside : ∀ e ∈ ev, now ≤ e.time ∧ e.time ≤ later

theorem InOrderWithin.nil {now later : Nat} (h : now ≤ later) : InOrderWithin now later [] :=
  ⟨h, .nil, fun _ he => nomatch he⟩

theorem InOrderWithin.singleton {now later : Nat} {e : Event} (he : e.time = now) (h : now ≤ later) :
    InOrderWithin now later [e] :=
  ⟨h, List.pairwise_singleton .., fun x hx => by
    rw [List.mem_singleton.1 hx, he]
    exact ⟨Nat.le_refl _, h⟩⟩

theorem InOrderWithin.append {t u v : Nat} {a b : List Event} (ha : InOrderWithin t u a) (hb : InOrderWithin u v b) :
    InOrderWithin t v (a ++ b) := by
  refine ⟨Nat.le_trans ha.le hb.le, ?_, fun e he => ?_⟩
  · rw [List.map_append, List.pairwise_append]
    refine ⟨ha.ordered, hb.ordered, fun x hx y hy => ?_⟩
    obtain ⟨e, he, rfl⟩ := List.mem_map.1 hx
    obtain ⟨e', he', rfl⟩ := List.mem_map.1 hy
    exact Nat.le_trans (ha.inside e he).2 (hb.inside e' he').1
  · rcases List.mem_append.1 he with he | he
    · exact ⟨(ha.inside e he).1, Nat.le_trans (ha.inside e he).2 hb.le⟩
    · exact ⟨Nat.le_trans ha.le (hb.inside e he).1, (hb.inside e he).2⟩

theorem pulseEvents_inOrder (t low high : Nat) : InOrderWithin t (t + (low + high)) (pulseEvents t low) := by
  have hlow : InOrderWithin t (t + low) [.drive t .asserted] := .singleton rfl (by omega)
  have hhigh : InOrderWithin (t + low) (t + (low + high)) [.drive (t + low) .released] := .singleton rfl (by omega)
  exact hlow.append hhigh

theorem blocksEvents_inOrder (n i t : Nat) (l : List (Byte × AckAnswer)) :
    InOrderWithin t (t + blocksUs l) (blocksEvents n i t l) :=
  ⟨Nat.le_add_right .., (blocksEvents_times n i t l).1, (blocksEvents_times n i t l).2⟩

/-- A Drive pair of a list of events stands in it as an event. -/
theorem drive_mem_of_mem_drivesOf {ev : List Event} {x : Nat × Direction} (h : x ∈ drivesOf ev) :
    .drive x.1 x.2 ∈ ev := by
  induction ev with
  | nil => cases h
  | cons e ev ih =>
    cases e with
    | drive t d =>
      rcases List.mem_cons.1 h with rfl | h
      · exact List.mem_cons_self ..
      · exact List.mem_cons_of_mem _ (ih h)
    | sample => exact List.mem_cons_of_mem _ (ih h)
    | ackWait => exact List.mem_cons_of_mem _ (ih h)

/-! ### How many blocks a frame sends -/

theorem blocksSent_le_length (l : List AckAnswer) : blocksSent l ≤ l.length := by
  induction l with
  | nil => exact Nat.le_refl _
  | cons o l ih => cases o <;> simp [blocksSent, ih]

theorem State.nextAcks_length (s : State) (n : Nat) : (s.nextAcks n).length = n := by
  simp [State.nextAcks]

theorem State.sentBlocks_length_le (s : State) (bytes : List Byte) : (s.sentBlocks bytes).length ≤ bytes.length := by
  simp only [State.sentBlocks, List.length_take, List.length_zip]
  omega

/-! ### The RESULT flags (R31) -/

theorem resultLevel_resultSample (lvl : Level) : resultLevel (resultSample lvl) = true ↔ lvl = .high := by
  cases lvl <;> decide

theorem resultAcked_resultSample (lvl : Level) : resultAcked (resultSample lvl) = false := by
  cases lvl <;> rfl

theorem resultAcked_resultWaitAck (o : AckAnswer) : resultAcked (resultWaitAck o) = true ↔ ∃ e, o = .ack e := by
  cases o with
  | ack e => exact ⟨fun _ => ⟨e, rfl⟩, fun _ => by rw [resultWaitAck_ack]; rfl⟩
  | nack => exact ⟨fun h => absurd h (by decide), fun ⟨_, h⟩ => nomatch h⟩

theorem resultLevel_resultWaitAck (o : AckAnswer) : resultLevel (resultWaitAck o) = false := by
  cases o with
  | ack e => rw [resultWaitAck_ack]; rfl
  | nack => rfl

/-- A legal RESULT with neither flag set. -/
structure PlainResult (r : Word) : Prop where
  legal : resultLegal r = true
  level : resultLevel r = false
  acked : resultAcked r = false

/-- A plain RESULT meets whatever is said of a RESULT with a flag set. -/
theorem PlainResult.flags {r : Word} (hr : PlainResult r) {p q : Prop} :
    resultLegal r = true ∧ (resultLevel r = true → p) ∧ (resultAcked r = true → q) :=
  ⟨hr.legal, by simp [hr.level], by simp [hr.acked]⟩

theorem plainResult_fixed : PlainResult resultOk ∧ PlainResult resultBusBusy ∧ PlainResult resultInvalidLength ∧
    PlainResult resultIllegalCommand :=
  ⟨⟨rfl, rfl, rfl⟩, ⟨rfl, rfl, rfl⟩, ⟨rfl, rfl, rfl⟩, rfl, rfl, rfl⟩

/-- A frame of at most 16 bytes ends in OK, or in NOT_ACKNOWLEDGED at one of its blocks (R85, R86). -/
theorem State.plainResult_frame (s : State) {n : Nat} (h16 : n ≤ 16) :
    PlainResult (if allAcked (s.nextAcks n) then resultOk
      else resultNotAcknowledged (blocksSent (s.nextAcks n) - 1)) := by
  split
  · exact plainResult_fixed.1
  · have hsent := blocksSent_le_length (s.nextAcks n)
    rw [State.nextAcks_length] at hsent
    obtain ⟨-, -, hlevel, hacked, hlegal⟩ :=
      resultNotAcknowledged_fields (blocksSent (s.nextAcks n) - 1) (by omega)
    exact ⟨hlegal, hlevel, hacked⟩

/-! ### Reading the spans of a command back from its events (R117) -/

theorem commandSpans_pulse (t low high : Nat) (rest : List Event) (finish : Nat)
    (hr : nextMoment finish rest = t + (low + high)) :
    commandSpans finish (pulseEvents t low ++ rest) = .pulse low high :: commandSpans finish rest := by
  simp only [pulseEvents, List.cons_append, List.nil_append, commandSpans, hr]
  congr 2 <;> omega

/-- The wait before the blocks of a frame ends where the first block starts, or the frame ends. -/
theorem nextMoment_blocksEvents (n i t : Nat) (l : List (Byte × AckAnswer)) :
    nextMoment (t + blocksUs l) (blocksEvents n i t l) = t := by
  cases l with
  | nil => rfl
  | cons x l => rfl

/-- The spans of a TRANSMIT past its bus-free check: the start bit and the blocks (R81, R82). -/
theorem commandSpans_frame (n t : Nat) (l : List (Byte × AckAnswer)) :
    commandSpans (t + 4500 + blocksUs l)
      ([.sample t .high] ++ pulseEvents t 3700 ++ blocksEvents n 0 (t + 4500) l) =
      .pulse 3700 800 :: blocksSpans n 0 l := by
  rw [List.append_assoc, List.singleton_append, commandSpans,
    commandSpans_pulse t 3700 800 _ _ (nextMoment_blocksEvents n 0 (t + 4500) l), commandSpans_blocks]

/-- The spans `l` are those of a stretch of time from `now` to `later` that recorded `ev` (R25, R117). -/
def SpansOf (now later : Nat) (ev : List Event) (l : List Span) : Prop :=
  drivesOf (waveEvents now l) = drivesOf ev ∧ now + spansUs l = later

theorem spansOf_pulse (t low high : Nat) :
    SpansOf t (t + (low + high)) (pulseEvents t low) (commandSpans (t + (low + high)) (pulseEvents t low)) := by
  have h := commandSpans_pulse t low high [] (t + (low + high)) rfl
  rw [List.append_nil] at h
  rw [h]
  exact ⟨rfl, rfl⟩

theorem spansOf_frame (n t : Nat) (l : List (Byte × AckAnswer)) :
    SpansOf t (t + 4500 + blocksUs l) ([.sample t .high] ++ pulseEvents t 3700 ++ blocksEvents n 0 (t + 4500) l)
      (commandSpans (t + 4500 + blocksUs l)
        ([.sample t .high] ++ pulseEvents t 3700 ++ blocksEvents n 0 (t + 4500) l)) := by
  rw [commandSpans_frame]
  constructor
  · simp only [waveEvents, Span.events, Span.us, drivesOf_append, waveEvents_blocks]
    rfl
  · rw [spansUs, spansUs_blocks, Span.us]
    omega

/-- A state aligned with its spans stays so when both go on by the same stretch of time. -/
theorem State.alignedWith_append {s t : State} {before l : List Span} {ev : List Event} (hs : s.alignedWith before)
    (hh : t.hist = s.hist ++ ev) (hl : SpansOf s.timeUs t.timeUs ev l) : t.alignedWith (before ++ l) := by
  obtain ⟨hdrives, htime⟩ := hs
  obtain ⟨hwave, hus⟩ := hl
  constructor
  · rw [hh, drivesOf_append, waveEvents_append, drivesOf_append, hdrives, Nat.zero_add, ← htime, hwave]
  · rw [spansUs_append, ← htime, hus]

/-! ### What every completed command keeps -/

section
variable {s t : State} {i : Instr} {ev : List Event} (h : Completes s i ev t)
include h

theorem Completes.hist : t.hist = s.hist ++ ev := by
  cases h
  case loadFb | invalidLength => exact (List.append_nil _).symm
  all_goals rfl

theorem Completes.cmd_moves : t.cmd = s.cmd ∧ t.moves = s.moves := by
  cases h <;> exact ⟨rfl, rfl⟩

/-- Only TRANSMIT writes SEQ, and it ends with IDLE (R22). -/
theorem Completes.seq : t.seq = s.seq ∨ t.seq = .idle := by
  cases h
  case invalidLength | busBusy | frame => exact .inr rfl
  all_goals exact .inl rfl

/-- Only LOAD_FB writes FB, and one cell of it (R18). -/
theorem Completes.fb : t.fb = s.fb ∨ ∃ idx val, i = .loadFb idx val ∧ t.fb = s.fb.write (cellIndex idx) val := by
  cases h
  case loadFb idx val => exact .inr ⟨idx, val, rfl, rfl⟩
  all_goals exact .inl rfl

/-- DIR is what the recorded events leave (R15). -/
theorem Completes.dir : t.dir = dirAfter s.dir ev := by
  cases h
  case frame n bytes h1 h16 hb hd hl =>
    rw [dirAfter_append, dirAfter_append, dirAfter_pulseEvents, dirAfter_blocksEvents]
    exact hd
  all_goals rfl

/-- Which commands write DIR, and how often RELEASE and ASSERT do (R15). -/
theorem Completes.drives :
    (drivesOf ev ≠ [] → i = .release ∨ i = .assert ∨ i = .sendStart ∨ (∃ v, i = .sendBit v) ∨ ∃ n, i = .transmit n) ∧
      (i = .release ∨ i = .assert → driveCount ev = 1) := by
  cases h
  case sample | waitAck | loadFb => exact ⟨fun hne => absurd rfl hne, by simp⟩
  case release | assert => exact ⟨by simp, fun _ => rfl⟩
  all_goals exact ⟨by simp, by simp⟩

/-- The events of a command are in order of time and dated within it (R24). -/
theorem Completes.inOrder : InOrderWithin s.timeUs t.timeUs ev := by
  cases h
  case release | assert | sample | busBusy => exact .singleton rfl (Nat.le_refl _)
  case waitAck => exact .singleton rfl (Nat.le_add_right ..)
  case loadFb | invalidLength => exact .nil (Nat.le_refl _)
  case sendStart => exact pulseEvents_inOrder s.timeUs 3700 800
  case sendBit v =>
    have := pulseEvents_inOrder s.timeUs (lowUs (bitOperand v)) (highUs (bitOperand v))
    rwa [lowUs_add_highUs] at this
  case frame n bytes _ _ _ _ _ =>
    have hcheck : InOrderWithin s.timeUs s.timeUs [.sample s.timeUs .high] := .singleton rfl (Nat.le_refl _)
    exact (hcheck.append (pulseEvents_inOrder s.timeUs 3700 800)).append
      (blocksEvents_inOrder n.toNat 0 (s.timeUs + 4500) _)

/-- RESULT is a legal value (R19), with LEVEL set by SAMPLE alone and ACKED by WAIT_ACK alone (R31). -/
theorem Completes.result : resultLegal t.result = true ∧ (resultLevel t.result = true → i = .sample) ∧
    (resultAcked t.result = true → i = .waitAck) := by
  obtain ⟨hok, hbusy, hlength, -⟩ := plainResult_fixed
  obtain ⟨-, -, -, -, hsample, hwait⟩ := resultLegal_fixed
  cases h
  case sample => exact ⟨hsample _, fun _ => rfl, by simp [resultAcked_resultSample]⟩
  case waitAck => exact ⟨hwait _, by simp [resultLevel_resultWaitAck], fun _ => rfl⟩
  case invalidLength => exact hlength.flags
  case busBusy => exact hbusy.flags
  case frame n bytes h1 h16 hb hd hl => exact (s.plainResult_frame h16).flags
  all_goals exact hok.flags

/-- The spans read from a command's events have its drives and its length (R117). -/
theorem Completes.spansOf : SpansOf s.timeUs t.timeUs ev (spansOfCommand s t) := by
  rw [spansOfCommand, h.hist, List.drop_left]
  cases h
  case sendStart => exact spansOf_pulse s.timeUs 3700 800
  case sendBit v =>
    have := spansOf_pulse s.timeUs (lowUs (bitOperand v)) (highUs (bitOperand v))
    rwa [lowUs_add_highUs] at this
  case frame n bytes _ _ _ _ _ => exact spansOf_frame n.toNat s.timeUs _
  all_goals exact ⟨rfl, rfl⟩

end

end Sys2Proof.Machine
end

section
/-! PROOF. The state of the block (10_state.md): its invariant, its frames, its RESULT and its history. -/

namespace Sys2Proof.Machine

open Sys2Proof.Config

/-! ### The invariant -/

/-- Time passes: a history in order of time stays so. -/
theorem chronological_later {h : List Event} {now later : Nat} (hh : chronological h now) (hle : now ≤ later) :
    chronological h later :=
  ⟨hh.1, fun e he => Nat.le_trans (hh.2 e he) hle⟩

/-- From now on the drive of a state that meets the invariant is DIR's, until the next event (R25). -/
theorem State.Inv.driveAt_from_now {s : State} (hs : s.Inv) {τ : Nat} (hτ : s.timeUs ≤ τ) :
    driveAt s.hist τ = s.dir := by
  rw [driveAt_after hs.historyOrdered.2 hτ, hs.driveIsDir]

theorem State.reset_inv : State.reset.Inv :=
  ⟨State.reset_fb_wf, rfl, rfl, ⟨.nil, fun _ he => nomatch he⟩, rfl⟩

/-- The word on CMD, the host's moves and a legal RESULT are free in the invariant. -/
theorem State.Inv.of_same {s t : State} (hs : s.Inv) (hfb : t.fb = s.fb) (hseq : t.seq = s.seq)
    (htime : t.timeUs = s.timeUs) (hhist : t.hist = s.hist) (hdir : t.dir = s.dir)
    (hresult : Machine.resultLegal t.result = true) : t.Inv :=
  ⟨hfb ▸ hs.bufferCanonical, hseq ▸ hs.sequencerIdle, hresult, by rw [hhist, htime]; exact hs.historyOrdered,
    by rw [hhist, htime, hdir]; exact hs.driveIsDir⟩

theorem State.Inv.idleStep {s : State} (hs : s.Inv) (d : Nat) : (s.idleStep d).Inv :=
  ⟨hs.bufferCanonical, hs.sequencerIdle, hs.resultLegal, chronological_later hs.historyOrdered (Nat.le_add_right ..),
    hs.driveAt_from_now (Nat.le_add_right ..)⟩

theorem State.Inv.illegalCommand {s : State} (hs : s.Inv) : s.illegalCommand.Inv := by
  obtain ⟨-, -, -, hillegal⟩ := plainResult_fixed
  exact hs.of_same rfl rfl rfl rfl rfl hillegal.legal

/-- A reset between commands meets the invariant as `State.reset` does: the fields it keeps are free in it (R107). -/
theorem State.resetBlock_inv (s : State) : s.resetBlock.Inv :=
  State.reset_inv.of_same rfl rfl rfl rfl rfl State.reset_inv.resultLegal

/-- A command that answers a next state keeps the invariant. -/
theorem Completes.inv {s t : State} {i : Instr} {ev : List Event} (h : Completes s i ev t) (hs : s.Inv) : t.Inv where
  bufferCanonical := by
    rcases h.fb with hfb | ⟨idx, val, -, hfb⟩
    · rw [hfb]
      exact hs.bufferCanonical
    · rw [hfb]
      exact Memory.wf_write _ val hs.bufferCanonical idx.isLt
  sequencerIdle := h.seq.elim (fun hseq => hseq.trans hs.sequencerIdle) id
  resultLegal := h.result.1
  historyOrdered := by
    rw [h.hist]
    exact chronological_append hs.historyOrdered h.inOrder.le h.inOrder.ordered h.inOrder.inside
  driveIsDir := by
    rw [h.hist, driveAt_append, hs.driveAt_from_now h.inOrder.le,
      foldl_driveStep_eq_dirAfter fun e he => (h.inOrder.inside e he).2, h.dir]

/-- Settles O54: the command's part is `Completes.inv`; a move of the host writes no field of the invariant, lets
time pass, or resets. -/
theorem everyStepKeepsTheInvariant : Obligations.EveryStepKeepsTheInvariant := by
  intro s t hs h
  obtain ⟨-, ⟨w, i, -, -, he⟩ | ⟨w, why, -, -, rfl⟩ | ⟨-, hmove⟩⟩ := step_next_cases h
  · have htaken : s.takeCommand.Inv := hs.of_same rfl rfl rfl rfl rfl hs.resultLegal
    obtain ⟨ev, hc⟩ := exec_completes he
    exact hc.inv htaken
  · have htaken : s.takeCommand.Inv := hs.of_same rfl rfl rfl rfl rfl hs.resultLegal
    exact htaken.illegalCommand
  · have hmoved : s.moveTaken.Inv := hs.of_same rfl rfl rfl rfl rfl hs.resultLegal
    rcases hmove with ⟨w, -, rfl⟩ | ⟨d, -, rfl⟩ | ⟨-, rfl⟩ | ⟨-, rfl⟩
    · exact hmoved.of_same rfl rfl rfl rfl rfl hs.resultLegal
    · exact hmoved.idleStep d
    · exact hmoved
    · exact s.moveTaken.resetBlock_inv

/-- Settles O53: `State.reset_inv`. -/
theorem resetMeetsTheInvariant : Obligations.ResetMeetsTheInvariant := State.reset_inv

/-! ### The frame buffer -/

/-- Settles O17: of all commands, only LOAD_FB writes FB, and a write is seen in its own cell alone. -/
theorem onlyLoadFbChangesTheFrameBuffer : Obligations.OnlyLoadFbChangesTheFrameBuffer := by
  refine ⟨fun _ => rfl, fun i s t h a hne => ?_, fun i s t h hi => ?_⟩
  · obtain ⟨ev, hc⟩ := exec_completes h
    rcases hc.fb with hfb | ⟨idx, val, hi, hfb⟩
    · exact absurd (congrArg (Memory.read · a) hfb) hne
    · have ha : a = idx.toNat := by
        by_contra hother
        exact hne (by rw [hfb]; exact Memory.read_write_other _ _ _ _ hother)
      refine ⟨idx, val, hi, ha, ?_⟩
      rw [hfb, ha]
      exact Memory.read_write_same _ _ _
  · obtain ⟨ev, hc⟩ := exec_completes h
    exact hc.fb.resolve_right fun ⟨idx, val, hload, _⟩ => hi idx val hload

/-- Reading the wire asks the environment once or not at all (R61). -/
theorem State.afterLineLevel_levels (s : State) :
    s.afterLineLevel.levels = s.levels ∨ s.afterLineLevel.levels = s.levels.tail := by
  cases hd : s.dir with
  | asserted => exact .inl (congrArg State.levels (State.lineLevel_asserted hd).2)
  | released => exact .inr (congrArg State.levels (State.lineLevel_released hd).2)

/-- Settles O49: each outcome of a TRANSMIT in turn. -/
theorem frameOfTransmit : Obligations.FrameOfTransmit := by
  intro n s t h
  obtain ⟨ev, hc⟩ := exec_completes h
  have hhist : s.hist <+: t.hist := ⟨ev, hc.hist.symm⟩
  cases hc with
  | invalidLength => exact ⟨fun _ => rfl, rfl, rfl, rfl, .inl rfl, ⟨0, Nat.zero_le _, rfl⟩, .inl rfl, hhist⟩
  | busBusy =>
    exact ⟨fun _ => rfl, rfl, rfl, rfl, s.afterLineLevel_levels, ⟨0, Nat.zero_le _, rfl⟩, .inl rfl, hhist⟩
  | frame _ bytes _ _ hb =>
    have hlen : bytes.length = n.toNat := (Memory.readFrom_ok.1 hb).1
    exact ⟨fun _ => rfl, rfl, rfl, rfl, .inr rfl, ⟨_, hlen ▸ s.sentBlocks_length_le bytes, rfl⟩, .inl rfl, hhist⟩

/-! ### RESULT -/

theorem runWord_of_command {w : Word} {i : Instr} (h : decode w = .command i) (s : State) :
    runWord w s = exec i s := by
  rw [runWord, h]

theorem runWord_of_illegal {w : Word} {why : IllegalReason} (h : decode w = .illegal why) (s : State) :
    runWord w s = .next s.illegalCommand := by
  rw [runWord, h]

theorem transmitFrame_setResult (bytes : List Byte) (r : Word) (s : State) :
    transmitFrame bytes (s.setResult r) = transmitFrame bytes s := by
  cases hl : s.lineLevel with
  | low =>
    have hask : (s.setResult r).afterLineLevel = s.afterLineLevel.setResult r := by
      obtain ⟨dir, _⟩ := s
      cases dir <;> rfl
    rw [transmitFrame_low hl, transmitFrame_low (s := s.setResult r) hl, hask]
    rfl
  | high =>
    obtain ⟨hd, he⟩ := State.released_of_lineLevel_high hl
    have hacks : (s.setResult r).acks = s.acks := rfl
    rw [transmitFrame_high hd he, transmitFrame_high (s := s.setResult r) hd he, State.sentBlocks_congr hacks,
      State.nextAcks_congr hacks]
    rfl

/-- No command reads RESULT (R20). -/
theorem exec_setResult (i : Instr) (r : Word) (s : State) : exec i (s.setResult r) = exec i s := by
  cases i with
  | release | assert | sendStart | sendBit | loadFb => rfl
  | sample | waitAck =>
    obtain ⟨dir, _⟩ := s
    cases dir <;> rfl
  | transmit n =>
    have hseq : (s.setResult r).setSeq .check = (s.setSeq .check).setResult r := rfl
    simp only [exec, execTransmit, State.setResult_fb, hseq, transmitFrame_setResult]
    rfl

/-- Settles O43: no command reads RESULT, and what each writes is `Completes.result`. -/
theorem resultIsOfTheLastCommandAlone : Obligations.ResultIsOfTheLastCommandAlone := by
  refine ⟨fun w s r => ?_, fun w s t h => ?_, fun s t h => ?_, fun s t h => ?_, fun s => ⟨rfl, rfl⟩⟩
  · cases hw : decode w with
    | command i =>
      rw [runWord_of_command hw, runWord_of_command hw]
      exact exec_setResult i r s
    | illegal why =>
      rw [runWord_of_illegal hw, runWord_of_illegal hw]
      rfl
  · cases hw : decode w with
    | command i =>
      rw [runWord_of_command hw] at h
      obtain ⟨ev, hc⟩ := exec_completes h
      simpa using hc.result
    | illegal why =>
      rw [runWord_of_illegal hw] at h
      cases h
      obtain ⟨-, -, -, hillegal⟩ := plainResult_fixed
      exact hillegal.flags
  · cases h
    exact resultLevel_resultSample _
  · cases h
    exact resultAcked_resultWaitAck _

/-! ### The history -/

/-- Settles O45: `dirAfter` is the value of the last Drive event, and `Completes.drives` says who records one. -/
theorem everyWriteOfDirIsRecorded : Obligations.EveryWriteOfDirIsRecorded := by
  refine ⟨⟨rfl, rfl⟩, fun i s t h => ?_⟩
  obtain ⟨ev, hc⟩ := exec_completes h
  exact ⟨ev, hc.hist, hc.dir, fun x hx => hc.inOrder.inside _ (drive_mem_of_mem_drivesOf hx), hc.drives.1, hc.drives.2⟩

/-- Settles O52: a command's events are dated within it; the host's other moves record none. -/
theorem timeAndHistoryOnlyGrow : Obligations.TimeAndHistoryOnlyGrow := by
  intro s t h hreset
  obtain ⟨-, ⟨w, i, -, -, he⟩ | ⟨w, why, -, -, rfl⟩ | ⟨hcmd, hmove⟩⟩ := step_next_cases h
  · obtain ⟨ev, hc⟩ := exec_completes he
    exact ⟨hc.inOrder.le, ev, hc.hist, hc.inOrder.inside⟩
  · exact ⟨Nat.le_refl _, [], (List.append_nil _).symm, fun _ he => nomatch he⟩
  · rcases hmove with ⟨w, -, rfl⟩ | ⟨d, -, rfl⟩ | ⟨-, rfl⟩ | ⟨hm, -⟩
    · exact ⟨Nat.le_refl _, [], (List.append_nil _).symm, fun _ he => nomatch he⟩
    · exact ⟨Nat.le_add_right .., [], (List.append_nil _).symm, fun _ he => nomatch he⟩
    · exact ⟨Nat.le_refl _, [], (List.append_nil _).symm, fun _ he => nomatch he⟩
    · exact absurd hm (hreset hcmd)

/-! ### The command port and the host's moves -/

theorem step_of_cmd {s : State} {w : Word} (hseq : s.seq = .idle) (hcmd : s.cmd = some w) :
    step s = runWord w s.takeCommand := by
  rw [step, stepPort, hseq, hcmd]

theorem step_of_no_cmd {s : State} (hseq : s.seq = .idle) (hcmd : s.cmd = none) : step s = hostMove s := by
  rw [step, stepPort, hseq, hcmd]

/-- Settles O38: a word on CMD is taken off and run (`step_of_cmd`), and `runWord` decodes it first. -/
theorem aStepRunsTheDecodedInstruction : Obligations.AStepRunsTheDecodedInstruction := by
  refine ⟨fun s w i hseq hcmd hd => ?_, fun s w why hseq hcmd hd => ?_, fun s w i hd => ?_⟩
  · rw [step_of_cmd hseq hcmd, runWord_of_command hd]
    rfl
  · rw [step_of_cmd hseq hcmd, runWord_of_illegal hd]
    rfl
  · have hcmd : (s.withFetchWord 16 w.toNat).cmd = some w := by
      simp [State.withFetchWord, placeCommand, Nat.mod_eq_of_lt w.isLt]
    rw [step_of_cmd rfl hcmd, runWord_of_command hd]
    rfl

/-- Settles O50: the drive through the idle time is `State.Inv.driveAt_from_now`. -/
theorem anIdleStepOnlyLetsTimePass : Obligations.AnIdleStepOnlyLetsTimePass := by
  refine ⟨fun s d hseq hcmd hm => ?_, fun s d hs τ hτ _ => hs.driveAt_from_now hτ, fun s hm => ?_⟩
  · rw [step_of_no_cmd hseq hcmd, hostMove, hm]
    rfl
  · rw [State.nextMove, Oracle.head, hm]

/-- Settles O51: no command writes CMD, and CMD is empty once its word has been taken off. -/
theorem theHostPortHoldsOneWord : Obligations.TheHostPortHoldsOneWord := by
  refine ⟨fun s w hseq hcmd hm => ?_, fun s hseq hcmd hm => ?_, fun s t w hcmd h => ?_⟩
  · rw [step_of_no_cmd hseq hcmd, hostMove, hm]
    rfl
  · rw [step_of_no_cmd hseq hcmd, hostMove, hm]
    rfl
  · obtain ⟨-, ⟨_, i, -, -, he⟩ | ⟨_, _, -, -, rfl⟩ | ⟨hnone, -⟩⟩ := step_next_cases h
    · obtain ⟨ev, hc⟩ := exec_completes he
      exact hc.cmd_moves.1
    · rfl
    · cases hcmd.symm.trans hnone

end Sys2Proof.Machine
end

section
/-! PROOF. The spans of a run and its realizations against the history (10_state.md R25; 70_reset_and_hazards.md R116,
R117). -/

namespace Sys2Proof.Machine

open Sys2Proof.Config

/-! ### The spans of a run -/

theorem stepSpans_of_cmd {s : State} {w : Word} (hcmd : s.cmd = some w) (t : State) (before : List Span) :
    stepSpans s t before = before ++ spansOfCommand s t := by
  rw [stepSpans, hcmd]

/-- One step keeps a state aligned with the spans of its run (R117). -/
theorem alignedWith_step {s t : State} {before : List Span} (hs : s.alignedWith before) (h : step s = .next t) :
    t.alignedWith (stepSpans s t before) := by
  obtain ⟨-, ⟨w, i, hcmd, -, he⟩ | ⟨w, why, hcmd, -, rfl⟩ | ⟨hcmd, hmove⟩⟩ := step_next_cases h
  · obtain ⟨ev, hc⟩ := exec_completes he
    rw [stepSpans_of_cmd hcmd]
    exact State.alignedWith_append hs hc.hist hc.spansOf
  · have hnone : spansOfCommand s s.takeCommand.illegalCommand = [] := by
      rw [spansOfCommand, State.illegalCommand_hist, State.takeCommand_hist, List.drop_length]
      rfl
    rw [stepSpans_of_cmd hcmd, hnone, List.append_nil]
    exact hs
  · rcases hmove with ⟨w, hm, rfl⟩ | ⟨d, hm, rfl⟩ | ⟨hm, rfl⟩ | ⟨hm, rfl⟩ <;> simp only [stepSpans, hcmd, hm]
    · exact hs
    · exact State.alignedWith_append (ev := []) hs (List.append_nil _).symm ⟨rfl, rfl⟩
    · exact hs
    · exact ⟨rfl, rfl⟩

/-- Settles O58: `alignedWith_step`, and the drive depends on the Drive events alone. -/
theorem theSpansOfARunAreItsHistory : Obligations.TheSpansOfARunAreItsHistory := by
  refine ⟨⟨rfl, rfl⟩, fun s t before hs h => ?_⟩
  have ht := alignedWith_step hs h
  exact ⟨ht, driveAt_congr ht.1⟩

/-- A run that answers a next state takes a first step that does, and goes on from there. -/
theorem run_succ_next {M : Host.Core} {k : Nat} {s t : M.State} (h : M.run (k + 1) s = .next t) :
    ∃ u, M.step s = .next u ∧ M.run k u = .next t := by
  unfold Host.Core.run at h
  split at h
  · exact ⟨_, ‹_›, h⟩
  · cases h
  · cases h

/-- A run that answers a next state ends aligned with its spans. -/
theorem alignedWith_run {k : Nat} {s t : State} {before : List Span} (hs : s.alignedWith before)
    (h : core.run k s = .next t) : t.alignedWith (runSpans k s before) := by
  induction k generalizing s before with
  | zero =>
    cases h
    exact hs
  | succ k ih =>
    obtain ⟨u, hstep, hrun⟩ := run_succ_next h
    rw [runSpans, show step s = .next u from hstep]
    exact ih (alignedWith_step hs hstep) hrun

/-! ### Realized drives -/

/-- The drives `b` are the drives `a` in the same order, each at most `m` off in time. -/
structure DrivesWithin (m : Nat) (a b : List (Nat × Direction)) : Prop where
  values : b.map Prod.snd = a.map Prod.snd
  times : ∀ x ∈ b.zip a, x.2.1 ≤ x.1.1 + m ∧ x.1.1 ≤ x.2.1 + m

theorem DrivesWithin.nil (m : Nat) : DrivesWithin m [] [] := ⟨rfl, fun _ hx => nomatch hx⟩

theorem DrivesWithin.cons {m t u : Nat} {d : Direction} {a b : List (Nat × Direction)} (htu : t ≤ u + m)
    (hut : u ≤ t + m) (h : DrivesWithin m a b) : DrivesWithin m ((t, d) :: a) ((u, d) :: b) := by
  refine ⟨by simp [h.values], fun x hx => ?_⟩
  rcases List.mem_cons.1 hx with rfl | hx
  · exact ⟨htu, hut⟩
  · exact h.times x hx

/-- A span realized within `tol` that starts `m` off has its drives at most `m + tol` off, before whatever follows. -/
theorem DrivesWithin.span {tol m M t u : Nat} {x y : Span} {a b : List Event} (hxy : x.realizedBy tol y = true)
    (htu : t ≤ u + m) (hut : u ≤ t + m) (hM : m + tol ≤ M) (h : DrivesWithin M (drivesOf a) (drivesOf b)) :
    DrivesWithin M (drivesOf (x.events t ++ a)) (drivesOf (y.events u ++ b)) := by
  rcases Span.realizedBy_cases hxy with
    ⟨d, rfl, rfl⟩ | ⟨low, high, low', high', rfl, rfl, hp⟩ | ⟨_, _, rfl, rfl, _⟩ | ⟨_, rfl, rfl⟩
  · exact h.cons (by omega) (by omega)
  · obtain ⟨⟨hlow, hlow'⟩, -, -⟩ := (pulseWithin_iff ..).1 hp
    exact (h.cons (by omega) (by omega)).cons (by omega) (by omega)
  · exact h
  · exact h

/-- Each realized span adds at most the tolerance to what the drives after it are off (R116). -/
theorem drivesWithin_of_realizes {tol m t u : Nat} {nominal real : List Span}
    (h : realizes tol nominal real = true) (htu : t ≤ u + m) (hut : u ≤ t + m) :
    DrivesWithin (m + tol * nominal.length) (drivesOf (waveEvents t nominal)) (drivesOf (waveEvents u real)) := by
  induction nominal generalizing real m t u with
  | nil =>
    rw [realizes_nil h]
    exact .nil _
  | cons x nominal ih =>
    obtain ⟨y, real', rfl, hxy, hrest⟩ := realizes_cons h
    obtain ⟨hus, hus'⟩ := Span.realizedBy_us hxy
    have hlen : m + tol * (x :: nominal).length = m + tol + tol * nominal.length := by
      rw [List.length_cons, Nat.mul_succ]
      omega
    rw [hlen]
    exact .span hxy htu hut (Nat.le_add_right ..)
      (ih (m := m + tol) (t := t + x.us) (u := u + y.us) hrest (by omega) (by omega))

/-- Settles O59: the nominal spans realize themselves, and every realization's drives are bounded span by span. -/
theorem observedWaveformsAreTheHistoryWithinTheBand : Obligations.ObservedWaveformsAreTheHistoryWithinTheBand := by
  intro k s t before hs h
  obtain ⟨hdrives, -⟩ := alignedWith_run hs h
  refine ⟨⟨_, ⟨_, realizes_refl _ _, rfl⟩, hdrives.symm⟩, ?_⟩
  rintro _ ⟨real, hreal, rfl⟩
  have hband := drivesWithin_of_realizes (m := 0) (t := 0) (u := 0) hreal (Nat.le_refl _) (Nat.le_refl _)
  rw [Nat.zero_add, ← hdrives] at hband
  exact ⟨hband.values, hband.times⟩

end Sys2Proof.Machine
end

section
/-! PROOF. The frame buffer and the wire as the host sees them (20_memory.md): a frame read back from the waveform alone
(R40, R41), what the commands leave alone (R38), and the two nibbles of a header byte (R42). -/

namespace Sys2Proof.Machine

open Sys2Proof.Config

/-! ### The symbols of a waveform -/

theorem symbolsOf_sample (t : Nat) (lvl : Level) (rest : List Event) :
    symbolsOf (.sample t lvl :: rest) = symbolsOf rest := rfl

theorem symbolsOf_ackWait (t : Nat) (o : AckAnswer) (rest : List Event) :
    symbolsOf (.ackWait t o :: rest) = symbolsOf rest := rfl

/-- A Drive that no other follows at the same time is seen on the wire (R25). -/
theorem settleDrives_cons {x : Nat × Direction} {rest : List (Nat × Direction)} (h : ∀ y ∈ rest, x.1 ≠ y.1) :
    settleDrives (x :: rest) = x :: settleDrives rest := by
  cases rest with
  | nil => rfl
  | cons y rest => exact if_neg (h y (List.mem_cons_self ..))

/-- A release where no pulse is in progress puts no symbol on the wire, even where a pulse starts at the same time. -/
theorem symbolsOf_release (t : Nat) (rest : List Event) :
    symbolsOf (.drive t .released :: rest) = symbolsOf rest := by
  simp only [symbolsOf, lowPulses, drivesOf]
  cases drivesOf rest with
  | nil => rfl
  | cons y ds =>
    rw [settleDrives]
    split <;> rfl

/-- A pulse that ends before anything else happens puts on the wire the symbol of its low phase (R73). -/
theorem symbolsOf_pulse {t low : Nat} {rest : List Event} (hlow : 0 < low) (hrest : ∀ e ∈ rest, t + low < e.time) :
    symbolsOf (pulseEvents t low ++ rest) = symbolOf low :: symbolsOf rest := by
  have hlater : ∀ y ∈ drivesOf rest, t + low < y.1 := fun y hy => hrest _ (drive_mem_of_mem_drivesOf hy)
  have hdrives : settleDrives (drivesOf (pulseEvents t low ++ rest)) =
      (t, .asserted) :: (t + low, .released) :: settleDrives (drivesOf rest) := by
    change settleDrives ((t, .asserted) :: (t + low, .released) :: drivesOf rest) = _
    rw [settleDrives_cons, settleDrives_cons fun y hy => (hlater y hy).ne]
    intro y hy
    rcases List.mem_cons.1 hy with rfl | hy
    · exact (Nat.lt_add_of_pos_right hlow).ne
    · exact (Nat.lt_of_le_of_lt (Nat.le_add_right ..) (hlater y hy)).ne
  rw [symbolsOf, lowPulses, hdrives]
  simp [lowPulsesFrom, symbolsOf, lowPulses]

/-- The low phase of a data bit tells its value (R73). -/
theorem symbolOf_lowUs (v : Bool) : symbolOf (lowUs v) = some (.bit v) := by
  cases v <;> rfl

/-- Data bits put their values on the wire in the order they are sent. -/
theorem symbolsOf_bits {t : Nat} (vs : List Bool) {rest : List Event}
    (hrest : ∀ e ∈ rest, t + 2400 * vs.length ≤ e.time) :
    symbolsOf (bitsEvents t vs ++ rest) = vs.map (fun v => some (.bit v)) ++ symbolsOf rest := by
  induction vs generalizing t with
  | nil => rfl
  | cons v vs ih =>
    obtain ⟨hpos, hlt⟩ := lowUs_lt v
    rw [List.length_cons] at hrest
    have hlater : ∀ e ∈ bitsEvents (t + 2400) vs ++ rest, t + lowUs v < e.time := by
      intro e he
      rcases List.mem_append.1 he with he | he
      · have := ((bitsEvents_times (t + 2400) vs).2 e he).1
        omega
      · have := hrest e he
        omega
    rw [bitsEvents, List.append_assoc, symbolsOf_pulse hpos hlater, symbolOf_lowUs,
      ih fun e he => by have := hrest e he; omega]
    rfl

/-- A block puts its nine bits on the wire; its release and its ACK wait add nothing (R82 to R84). -/
theorem symbolsOf_block (n i t : Nat) (b : Byte) (o : AckAnswer) {rest : List Event}
    (hrest : ∀ e ∈ rest, t + blockUs ≤ e.time) :
    symbolsOf (blockEvents n i t b o ++ rest) =
      (blockBits n i b).map (fun v => some (.bit v)) ++ symbolsOf rest := by
  rw [blockEvents, List.append_assoc, symbolsOf_bits, List.cons_append, List.singleton_append, symbolsOf_release,
    symbolsOf_ackWait]
  intro e he
  rw [blockBits_length]
  simp only [List.cons_append, List.nil_append, List.mem_cons] at he
  rcases he with rfl | rfl | he
  · exact Nat.le_refl _
  · exact Nat.le_refl _
  · exact hrest e he

/-- The blocks of a frame put their bytes on the wire in index order. -/
theorem symbolsOf_blocks (n i t : Nat) (l : List (Byte × AckAnswer)) :
    symbolsOf (blocksEvents n i t l) = (blockSymbols n i (l.map Prod.fst)).map some := by
  induction l generalizing i t with
  | nil => rfl
  | cons x l ih =>
    obtain ⟨b, o⟩ := x
    rw [blocksEvents, symbolsOf_block, ih]
    · simp [blockSymbols]
    · intro e he
      have := ((blocksEvents_times n (i + 1) (t + blockUs + ackWaitUs o) l).2 e he).1
      omega

/-- A frame puts the start bit on the wire and then its blocks (R81, R82). -/
theorem symbolsOf_frame (n t : Nat) (l : List (Byte × AckAnswer)) :
    symbolsOf ([.sample t .high] ++ pulseEvents t 3700 ++ blocksEvents n 0 (t + 4500) l) =
      (.start :: blockSymbols n 0 (l.map Prod.fst)).map some := by
  have hlater : ∀ e ∈ blocksEvents n 0 (t + 4500) l, t + 3700 < e.time := by
    intro e he
    have := ((blocksEvents_times n 0 (t + 4500) l).2 e he).1
    omega
  rw [List.append_assoc, List.singleton_append, symbolsOf_sample, symbolsOf_pulse (by omega) hlater, symbolsOf_blocks]
  rfl

/-! ### The frame a TRANSMIT sends -/

/-- The bytes a frame sends: those of its blocks up to the first NACK, its block included (R85). -/
theorem State.sentBlocks_bytes (s : State) (bytes : List Byte) :
    (s.sentBlocks bytes).map Prod.fst = bytes.take (blocksSent (s.nextAcks bytes.length)) := by
  rw [State.sentBlocks, List.map_take, List.map_fst_zip (by rw [State.nextAcks_length])]

/-- The bits of a block as numbers: bit 7 down to bit 0 of the byte, then 1 for the last block alone (R41, R83). -/
theorem blockBits_eq {n : Nat} (hn : 1 ≤ n) (i : Nat) (b : Byte) :
    blockBits n i b = (List.range 8).map (fun j => b.getLsbD (7 - j)) ++ [decide (i + 1 = n)] := by
  have heom : eomBit n i = decide (i + 1 = n) := decide_eq_decide.2 (by omega)
  rw [blockBits, heom]
  rfl

/-- A TRANSMIT of a legal length, its cells written and the wire High, sends the frame (R81 to R86). -/
theorem exec_transmit_frame {n : BitVec 5} {s : State} {bytes : List Byte} (h1 : 1 ≤ n.toNat) (h16 : n.toNat ≤ 16)
    (hb : s.fb.readFrame n.toNat = .ok bytes) (hd : s.dir = .released) (hl : s.envLevelNow = .high) :
    ∃ t, exec (.transmit n) s = .next t ∧ t.hist = s.hist ++ ([.sample s.timeUs .high] ++ pulseEvents s.timeUs 3700 ++
      blocksEvents n.toNat 0 (s.timeUs + 4500) (s.sentBlocks bytes)) := by
  have hlen : bytes.length = n.toNat := (Memory.readFrom_ok.1 hb).1
  refine ⟨transmitFrame bytes (s.setSeq .check), ?_, ?_⟩
  · have hlegal : lengthLegal (frameLength n) = true := (lengthLegal_iff _).2 ⟨h1, h16⟩
    rw [exec, execTransmit, if_pos hlegal, frameLength, hb]
  · rw [transmitFrame_high (s := s.setSeq .check) hd hl, State.sentBlocks_congr (t := s) rfl, hlen]
    rfl

/-- Settles O24: the events of the frame, read back symbol by symbol. -/
theorem theWaveformCarriesTheFrame : Obligations.TheWaveformCarriesTheFrame := by
  intro n s bytes h1 h16 hlen hcells hd hl
  have hb : s.fb.readFrame n.toNat = .ok bytes :=
    Memory.readFrom_ok.2 ⟨hlen, fun k hk => by rw [Nat.zero_add]; exact hcells k hk⟩
  obtain ⟨t, ht, hhist⟩ := exec_transmit_frame h1 h16 hb hd hl
  refine ⟨t, _, ht, hhist, ?_, blockBits_eq h1⟩
  rw [symbolsOf_frame, State.sentBlocks_bytes, hlen]

/-! ### What the commands leave alone -/

/-- Writing the same value to the same cell twice leaves what writing it once does (R38). -/
theorem Memory.write_write (m : Memory) (a : Nat) (v : Byte) : (m.write a v).write a v = m.write a v := by
  induction m with
  | nil => simp [write]
  | cons x m ih =>
    obtain ⟨k, u⟩ := x
    by_cases hlt : a < k
    · simp [write, hlt]
    · by_cases heq : a = k
      · simp [write, heq]
      · simp [write, hlt, heq, ih]

/-- A second write of DIR with the same value at the same time changes the drive at no time (R25). -/
theorem driveAt_repeated_drive (h : List Event) (t τ : Nat) (d : Direction) :
    driveAt (h ++ [.drive t d] ++ [.drive t d]) τ = driveAt (h ++ [.drive t d]) τ := by
  simp only [driveAt_append_drive]
  split <;> rfl

/-- A command that records no Drive event leaves DIR and the waveform as they were (R25). -/
theorem Completes.wire_unchanged {s t : State} {i : Instr} {ev : List Event} (h : Completes s i ev t)
    (hev : drivesOf ev = []) : t.dir = s.dir ∧ ∀ τ, driveAt t.hist τ = driveAt s.hist τ := by
  refine ⟨by rw [h.dir, dirAfter, hev]; rfl, fun τ => driveAt_congr ?_ τ⟩
  rw [h.hist, drivesOf_append, hev, List.append_nil]

/-- Settles O46: SAMPLE and LOAD_FB record no Drive event, a second equal write changes no cell, and a second equal
Drive event at the same time changes no drive. -/
theorem sideEffectsAndIdempotence : Obligations.SideEffectsAndIdempotence := by
  refine ⟨fun i s t hi h => ?_, fun idx val s t h => ?_, fun i s t u hi ht hu => ?_⟩
  · obtain ⟨ev, hc⟩ := exec_completes h
    refine hc.wire_unchanged (by_contra fun hne => ?_)
    rcases hi with rfl | ⟨idx, val, rfl⟩ <;> simpa using hc.drives.1 hne
  · cases h
    exact congrArg (fun m => Host.Outcome.next { s with fb := m, result := resultOk }) (Memory.write_write ..)
  · rcases hi with rfl | rfl
    all_goals
      cases ht
      cases hu
      exact ⟨rfl, fun τ => driveAt_repeated_drive _ _ τ _, List.length_append⟩

/-- Settles O47: the outcome of each of the six commands in turn. -/
theorem frameOfTheWireCommands : Obligations.FrameOfTheWireCommands := by
  intro i s t hi h
  obtain ⟨ev, hc⟩ := exec_completes h
  have hhist : s.hist <+: t.hist := ⟨ev, hc.hist.symm⟩
  cases hc with
  | release | assert =>
    exact ⟨fun _ => rfl, rfl, rfl, rfl, fun _ => rfl, fun _ => rfl, fun _ => rfl, by simp, hhist⟩
  | sample => exact ⟨fun _ => rfl, rfl, rfl, rfl, (absurd rfl ·), fun _ => rfl, fun _ => rfl, fun _ => rfl, hhist⟩
  | sendStart | sendBit =>
    exact ⟨fun _ => rfl, rfl, rfl, rfl, fun _ => rfl, fun _ => rfl, by simp, by simp, hhist⟩
  | waitAck => exact ⟨fun _ => rfl, rfl, rfl, rfl, fun _ => rfl, (absurd rfl ·), by simp, fun _ => rfl, hhist⟩
  | loadFb | invalidLength | busBusy | frame => simp at hi

/-! ### The header byte -/

/-- The header byte is the two addresses side by side, the initiator's high (R42). -/
theorem headerByte_eq_append (initiator destination : BitVec 4) :
    BitVec.ofNat 8 (headerByte initiator.toNat destination.toNat) = initiator ++ destination := by
  rw [headerByte, ← BitVec.toNat_append, BitVec.ofNat_toNat]
  rfl

/-- Settles O37: the two nibbles of the addresses side by side. -/
theorem headerNibblesAreInitiatorAndDestination : Obligations.HeaderNibblesAreInitiatorAndDestination := by
  intro initiator destination
  rw [headerByte_eq_append]
  exact ⟨BitVec.extractLsb'_append_eq_left, BitVec.extractLsb'_append_eq_right⟩

end Sys2Proof.Machine
end

section
/-! PROOF. The encoding (30_encoding.md): the decoder said with numbers, its round trip with the encoder, the rows of
R49, the Illegal words, and the words that the lines of assembly name. -/

namespace Sys2Proof

open Sys2Proof.Machine

/-! ### The decoder, said with numbers -/

theorem Decoded.instr?_eq_some_iff {d : Decoded} {i : Instr} : d.instr? = some i ↔ d = .command i := by
  cases d <;> simp [Decoded.instr?]

theorem Decoded.instr?_eq_none_iff {d : Decoded} : d.instr? = none ↔ ∃ why, d = .illegal why := by
  cases d <;> simp [Decoded.instr?]

/-- The command that the word with the number `k` selects: the lines of R55, each field a quotient and remainder. -/
def selected (k : Nat) : Option Instr :=
  if k % 16 = 0 ∧ k / 16 = 0 then some .release
  else if k % 16 = 1 ∧ k / 16 = 0 then some .assert
  else if k % 16 = 2 ∧ k / 16 = 0 then some .sample
  else if k % 16 = 3 ∧ k / 16 = 0 then some .sendStart
  else if k % 16 = 4 ∧ k / 32 = 0 then some (.sendBit (BitVec.ofNat 1 (k / 16 % 2)))
  else if k % 16 = 5 ∧ k / 16 = 0 then some .waitAck
  else if k % 16 = 6 then some (.loadFb (BitVec.ofNat 4 (k / 16 % 16)) (BitVec.ofNat 8 (k / 256)))
  else if k % 16 = 7 ∧ k / 512 = 0 then some (.transmit (BitVec.ofNat 5 (k / 16 % 32)))
  else none

/-- The reserved-zero check as a quotient (R53). -/
theorem needZeroFrom_instr? (w : Word) {lo : Nat} (h : lo ≤ 15) (i : Instr) :
    (needZeroFrom w lo i).instr? = if w.toNat / 2 ^ lo = 0 then some i else none := by
  simp only [needZeroFrom_eq w lo h, Nat.div_eq_zero_iff_lt (Nat.two_pow_pos lo)]
  split <;> rfl

/-- A field of a word as the bit vector of a quotient (R50). -/
theorem wordField_eq_ofNat (w : Word) (hi lo : Nat) :
    wordField w hi lo = BitVec.ofNat (hi - lo + 1) (w.toNat / 2 ^ lo % 2 ^ (hi - lo + 1)) :=
  BitVec.eq_of_toNat_eq (by rw [wordField_toNat, BitVec.toNat_ofNat, Nat.mod_mod])

/-- The decoder is the function of R55. -/
theorem decode_instr? (w : Word) : (decode w).instr? = selected w.toNat := by
  have hval : w.toNat / 256 % 256 = w.toNat / 256 := Nat.mod_eq_of_lt (by have := w.isLt; omega)
  rw [decode, opField_eq]
  split
  case h_9 => simp_all [selected, Decoded.instr?]
  case h_7 hop => simp [selected, hop, Decoded.instr?, wordField_eq_ofNat, hval]
  all_goals
    rename_i hop
    simp [selected, hop, needZeroFrom_instr?, wordField_eq_ofNat]

/-! ### The encoder, said with numbers -/

/-- The bits of a command word above its opcode, as a number (R48). -/
def operandNumber : Instr → Nat
  | .release | .assert | .sample | .sendStart | .waitAck => 0
  | .sendBit v => v.toNat
  | .loadFb idx val => val.toNat * 16 + idx.toNat
  | .transmit n => n.toNat

/-- The operands stand above the opcode (R48). -/
theorem encode_toNat (i : Instr) : (encode i).toNat = operandNumber i * 16 + (opcodeOf i).toNat := by
  cases i with
  | release | assert | sample | sendStart | waitAck => rfl
  | sendBit v => exact encode_sendBit_toNat v
  | loadFb idx val =>
    rw [encode_loadFb_toNat, operandNumber, Nat.add_mul, Nat.mul_assoc]
    rfl
  | transmit n => exact encode_transmit_toNat n

/-! ### The round trip -/

/-- The number of an encoding selects the instruction it encodes, whatever its operands (R49 to R52). -/
theorem selected_encode (i : Instr) : selected (encode i).toNat = some i := by
  rw [encode_toNat]
  cases i with
  | release | assert | sample | sendStart | waitAck => rfl
  | sendBit v =>
    have hop : (v.toNat * 16 + 4) % 16 = 4 := by omega
    have hzero : (v.toNat * 16 + 4) / 32 = 0 := by omega
    have hv : (v.toNat * 16 + 4) / 16 % 2 = v.toNat := by omega
    simp [operandNumber, opcodeOf, selected, hop, hzero, hv]
  | loadFb idx val =>
    have hop : ((val.toNat * 16 + idx.toNat) * 16 + 6) % 16 = 6 := by omega
    have hidx : ((val.toNat * 16 + idx.toNat) * 16 + 6) / 16 % 16 = idx.toNat := by omega
    have hval : ((val.toNat * 16 + idx.toNat) * 16 + 6) / 256 = val.toNat := by omega
    simp [operandNumber, opcodeOf, selected, hop, hidx, hval]
  | transmit n =>
    have hop : (n.toNat * 16 + 7) % 16 = 7 := by omega
    have hzero : (n.toNat * 16 + 7) / 512 = 0 := by omega
    have hn : (n.toNat * 16 + 7) / 16 % 32 = n.toNat := by omega
    simp [operandNumber, opcodeOf, selected, hop, hzero, hn]

theorem decode_encode (i : Instr) : decode (encode i) = .command i := by
  rw [← Decoded.instr?_eq_some_iff, decode_instr?, selected_encode]

/-- Settles O29: the number of the encoding selects the instruction. -/
theorem decodeOfEncodeIsTheInstruction : Obligations.DecodeOfEncodeIsTheInstruction := decode_encode

/-- A number of 16 bits that selects an instruction is that of its encoding: on each line of R55 the opcode and the
operands are the whole word. -/
theorem encode_toNat_of_selected {k : Nat} {i : Instr} (hk : k < 2 ^ 16) (h : selected k = some i) :
    (encode i).toNat = k := by
  rw [encode_toNat]
  unfold selected at h
  split_ifs at h <;> cases h
  all_goals
    simp only [operandNumber, opcodeOf, BitVec.toNat_ofNat, BitVec.reduceToNat]
    omega

theorem eq_encode_of_decode {w : Word} {i : Instr} (h : decode w = .command i) : w = encode i := by
  rw [← Decoded.instr?_eq_some_iff, decode_instr?] at h
  exact BitVec.eq_of_toNat_eq (encode_toNat_of_selected w.isLt h).symm

/-- Settles O30: the word and the encoding have one number. -/
theorem everyLegalWordIsAnEncoding : Obligations.EveryLegalWordIsAnEncoding := fun _ _ => eq_encode_of_decode

/-! ### The rows of the opcode table -/

/-- The mask of the row with this opcode (R49). -/
def opcodeMask (o : BitVec 4) : Word :=
  if o = 4 then 0xFFEF else if o = 6 then 0x000F else if o = 7 then 0xFE0F else 0xFFFF

theorem rowMask_eq (i : Instr) : rowMask i = opcodeMask (opcodeOf i) := by
  cases i <;> rfl

/-- Every encoding agrees with its row (R49). -/
theorem encode_and_rowMask (i : Instr) : encode i &&& rowMask i = rowMatch i := by
  cases i with
  | release => exact Laws.Encoding.release
  | assert => exact Laws.Encoding.assert
  | sample => exact Laws.Encoding.sample
  | sendStart => exact Laws.Encoding.sendStart
  | sendBit v => exact Laws.Encoding.sendBit v
  | waitAck => exact Laws.Encoding.waitAck
  | loadFb idx val => exact Laws.Encoding.loadFb idx val
  | transmit n => exact Laws.Encoding.transmit n

/-- Where a row's mask covers a whole field, the field of a word that agrees with the row is the match's (R49). -/
theorem wordField_of_row {w m x : Word} {hi lo : Nat} (h : w &&& m = x)
    (hm : (wordField m hi lo).toNat = 2 ^ (hi - lo + 1) - 1) : wordField w hi lo = wordField x hi lo := by
  have hall : wordField m hi lo = BitVec.allOnes _ := BitVec.eq_of_toNat_eq (by rw [hm, BitVec.toNat_allOnes])
  calc wordField w hi lo
      = wordField w hi lo &&& wordField m hi lo := by rw [hall, BitVec.and_allOnes]
    _ = wordField (w &&& m) hi lo := BitVec.extractLsb_and.symm
    _ = wordField x hi lo := by rw [h]

/-- Every mask covers OP, and the match of a row holds the row's opcode there (R49). -/
theorem opField_of_row {w : Word} {i : Instr} (h : w &&& rowMask i = rowMatch i) :
    opField w = (opcodeOf i).toNat := by
  have hmask : (wordField (rowMask i) 3 0).toNat = 15 := by cases i <;> rw [rowMask] <;> rfl
  have hmatch : (wordField (rowMatch i) 3 0).toNat = (opcodeOf i).toNat := by cases i <;> rfl
  rw [opField, wordField_of_row h hmask, hmatch]

/-- A word that agrees with a row selects a command of that row: the mask covers all but the row's operands, so the
opcode is the row's and the reserved-zero bits are 0. -/
theorem decode_of_row {w : Word} {i : Instr} (h : w &&& rowMask i = rowMatch i) :
    ∃ j, decode w = .command j ∧ opcodeOf j = opcodeOf i := by
  have hop := opField_of_row h
  cases i with
  | release | assert | sample | sendStart | waitAck =>
    have hzero : wordField w 15 4 = 0 := wordField_of_row (m := 0xFFFF) h rfl
    exact ⟨_, by simp [decode, hop, opcodeOf, needZeroFrom, hzero], rfl⟩
  | sendBit v =>
    have hzero : wordField w 15 5 = 0 := wordField_of_row (m := 0xFFEF) (x := 0x0004) h rfl
    exact ⟨.sendBit (wordField w 4 4), by simp [decode, hop, opcodeOf, needZeroFrom, hzero], rfl⟩
  | loadFb idx val =>
    exact ⟨.loadFb (wordField w 7 4) (wordField w 15 8), by simp [decode, hop, opcodeOf], rfl⟩
  | transmit n =>
    have hzero : wordField w 15 9 = 0 := wordField_of_row (m := 0xFE0F) (x := 0x0007) h rfl
    exact ⟨.transmit (wordField w 8 4), by simp [decode, hop, opcodeOf, needZeroFrom, hzero], rfl⟩

/-- Settles O31: a word that selects a command is its encoding, which agrees with its row; the other way is
`decode_of_row`. -/
theorem matchAndMaskSelectTheCommand : Obligations.MatchAndMaskSelectTheCommand := by
  refine ⟨fun w i => ⟨decode_of_row, ?_⟩, fun w i j hi hj => ?_⟩
  · rintro ⟨j, hd, hop⟩
    rw [eq_encode_of_decode hd, rowMask_eq, rowMatch, ← hop, ← rowMask_eq]
    exact encode_and_rowMask j
  · obtain ⟨i', hdi, hopi⟩ := decode_of_row hi
    obtain ⟨j', hdj, hopj⟩ := decode_of_row hj
    cases hdi.symm.trans hdj
    exact hopi.symm.trans hopj

/-! ### The Illegal words -/

/-- The numbers of the words that select no command: a reserved OP, or a reserved-zero bit at 1 (R53, R54). -/
theorem selected_eq_none_iff (k : Nat) : selected k = none ↔
    8 ≤ k % 16 ∨ (k % 16 ∈ [0, 1, 2, 3, 5] ∧ 16 ≤ k) ∨ (k % 16 = 4 ∧ 32 ≤ k) ∨ (k % 16 = 7 ∧ 512 ≤ k) := by
  simp only [selected, List.mem_cons, List.not_mem_nil, or_false]
  -- the lines of R55 in turn
  split_ifs <;> simp only [false_iff, true_iff] <;> omega

/-- Settles O33: a word is Illegal exactly when its number selects nothing. -/
theorem illegalWordsOnlyWriteTheResult : Obligations.IllegalWordsOnlyWriteTheResult := by
  refine ⟨fun w => ?_, fun w why s h => runWord_of_illegal h s, rfl⟩
  rw [← Decoded.instr?_eq_none_iff, decode_instr?, selected_eq_none_iff]

/-- Counting in two parts. Stated for any predicate, so that the kernel never evaluates the counts it adds. -/
theorem count_add_of {p : Nat → Prop} [DecidablePred p] {a b m n : Nat} (ha : a.count p = m)
    (hb : b.count (fun k => p (a + k)) = n) : (a + b).count p = m + n := by
  rw [Nat.count_add, ha, hb]

/-- From 512 on a number selects a command exactly when its OP is LOAD_FB's (R55). -/
theorem selected_isSome_from_512 (k : Nat) : (selected (512 + k)).isSome ↔ k ≡ 6 [MOD 16] := by
  rw [← Option.ne_none_iff_isSome, ne_eq, selected_eq_none_iff, Nat.ModEq]
  simp only [List.mem_cons, List.not_mem_nil, or_false]
  omega

/-- Below 512 there are 5 words of format Z, 2 of SEND_BIT, 32 of LOAD_FB and 32 of TRANSMIT; above, every sixteenth
word is a LOAD_FB (R55). -/
theorem count_selected : (65536).count (fun k => (selected k).isSome) = 4135 := by
  have hbelow : (512).count (fun k => (selected k).isSome) = 71 := by decide +kernel
  have habove : (65024).count (fun k => (selected (512 + k)).isSome) = 4064 := by
    simp only [selected_isSome_from_512]
    norm_num [Nat.count_modEq_card]
  simpa only [Nat.reduceAdd] using count_add_of hbelow habove

/-- Settles O32: `decode_instr?` is the first clause, `count_selected` the second. -/
theorem decodeIsTheFunctionOfR55 : Obligations.DecodeIsTheFunctionOfR55 := by
  refine ⟨decode_instr?, ?_, fun w s h => ?_⟩
  · have hword : ∀ k ∈ List.range 65536,
        (decode (BitVec.ofNat 16 k)).instr?.isSome = true ↔ decide ((selected k).isSome = true) = true := by
      intro k hk
      rw [decode_instr?, BitVec.toNat_ofNat, Nat.mod_eq_of_lt (List.mem_range.1 hk), decide_eq_true_iff]
    rw [← List.countP_eq_length_filter, List.countP_congr hword]
    exact count_selected
  · obtain ⟨why, hd⟩ := Decoded.instr?_eq_none_iff.1 h
    exact runWord_of_illegal hd s

/-- Settles O34: the decoder evaluated on each word. -/
theorem wordsOfEveryCommandDecode : Obligations.WordsOfEveryCommandDecode :=
  ⟨rfl, rfl, rfl, rfl, rfl, rfl, rfl, rfl, rfl, rfl⟩

end Sys2Proof
end

section
/-! PROOF. The assembler (30_encoding.md R57, R58): the word of each line, and the expansions of the
pseudo-instructions. -/

namespace Sys2Proof

/-! ### The words of the lines with operands -/

theorem encode_sendBit_ofNat {v : Nat} (hv : v ≤ 1) :
    encode (.sendBit (BitVec.ofNat 1 v)) = BitVec.ofNat 16 (v <<< 4 ||| 0x4) := by
  apply BitVec.eq_of_toNat_eq
  rw [encode_sendBit_toNat, ← Nat.shiftLeft_add_eq_or_of_lt (by omega), Nat.shiftLeft_eq, BitVec.toNat_ofNat,
    BitVec.toNat_ofNat]
  omega

theorem encode_loadFb_ofNat {idx : Nat} (hidx : idx ≤ 15) (val : Nat) :
    encode (.loadFb (BitVec.ofNat 4 idx) (BitVec.ofNat 8 val)) = BitVec.ofNat 16 (val <<< 8 ||| idx <<< 4 ||| 0x6) := by
  have hlow : idx <<< 4 ||| 0x6 = idx * 16 + 6 := by
    rw [← Nat.shiftLeft_add_eq_or_of_lt (by omega), Nat.shiftLeft_eq]
  apply BitVec.eq_of_toNat_eq
  rw [encode_loadFb_toNat, Nat.or_assoc, hlow, ← Nat.shiftLeft_add_eq_or_of_lt (by omega), Nat.shiftLeft_eq,
    BitVec.toNat_ofNat, BitVec.toNat_ofNat, BitVec.toNat_ofNat]
  omega

theorem encode_transmit_ofNat {n : Nat} (hn : n ≤ 31) :
    encode (.transmit (BitVec.ofNat 5 n)) = BitVec.ofNat 16 (n <<< 4 ||| 0x7) := by
  apply BitVec.eq_of_toNat_eq
  rw [encode_transmit_toNat, ← Nat.shiftLeft_add_eq_or_of_lt (by omega), Nat.shiftLeft_eq, BitVec.toNat_ofNat,
    BitVec.toNat_ofNat]
  omega

/-- A line whose operand range is `p` names its words in that range and no word outside it (R57). -/
theorem assemble_eq_ite {l : AsmLine} {p : Prop} [Decidable p] {ws : List Word} (hp : l.wellFormed = true ↔ p)
    (hw : p → assemble l = some ws) : assemble l = if p then some ws else none := by
  split
  · exact hw ‹p›
  · exact if_neg (mt hp.1 ‹¬p›)

/-- Settles O35: each line with operands is in its range or names no word. -/
theorem assemblerWordsAndRefusals : Obligations.AssemblerWordsAndRefusals := by
  refine ⟨⟨rfl, rfl, rfl, rfl, rfl⟩, fun v => ?_, fun idx val => ?_, fun n => ?_, fun w => ?_⟩
  · refine assemble_eq_ite decide_eq_true_iff fun hv => ?_
    simp [assemble, AsmLine.wellFormed, hv, encode_sendBit_ofNat hv]
  · refine assemble_eq_ite (by simp [AsmLine.wellFormed]) fun h => ?_
    obtain ⟨hidx, hval⟩ := h
    simp [assemble, AsmLine.wellFormed, hidx, hval, encode_loadFb_ofNat hidx val]
  · refine assemble_eq_ite decide_eq_true_iff fun hn => ?_
    simp [assemble, AsmLine.wellFormed, hn, encode_transmit_ofNat hn]
  · exact assemble_eq_ite decide_eq_true_iff fun hw => if_pos (decide_eq_true hw)

/-! ### The pseudo-instructions -/

theorem encode_sendBit_ofBool (c : Bool) : encode (.sendBit (BitVec.ofBool c)) = if c then 0x0014 else 0x0004 := by
  cases c <;> rfl

/-- The LOAD_FB words of a frame: byte `b` for cell `i` is the word `b << 8 | i << 4 | 6` (R58). -/
theorem loadsFrom_map_encode {i : Nat} {bs : List Nat} (hi : i + bs.length ≤ 16) :
    (loadsFrom i bs).map encode =
      (bs.zipIdx i).map fun x => BitVec.ofNat 16 (x.1 <<< 8 ||| x.2 <<< 4 ||| 0x6) := by
  induction bs generalizing i with
  | nil => rfl
  | cons b bs ih =>
    rw [List.length_cons] at hi
    rw [loadsFrom, List.map_cons, List.zipIdx_cons, List.map_cons, encode_loadFb_ofNat (by omega) b,
      ih (by omega)]

/-- The words of a frame (R58). -/
theorem assemble_frame {bs : List Nat} (h1 : 1 ≤ bs.length) (h16 : bs.length ≤ 16) (hbs : ∀ b ∈ bs, b ≤ 255) :
    assemble (.frame bs) = some (bs.zipIdx.map (fun x => BitVec.ofNat 16 (x.1 <<< 8 ||| x.2 <<< 4 ||| 0x6)) ++
      [BitVec.ofNat 16 (bs.length <<< 4 ||| 0x7)]) := by
  have hwf : (AsmLine.frame bs).wellFormed = true := by simpa [AsmLine.wellFormed, h16] using ⟨h1, hbs⟩
  rw [assemble, if_pos hwf]
  simp only [frameInstrs, List.map_append, List.map_cons, List.map_nil]
  rw [loadsFrom_map_encode (by omega), encode_transmit_ofNat (by omega)]

/-- A poll is the frame of its header byte, which is a byte (R42, R58). -/
theorem assemble_poll {initiator destination : Nat} (hi : initiator ≤ 15) (hd : destination ≤ 15) :
    headerByte initiator destination ≤ 255 ∧
      assemble (.poll initiator destination) = assemble (.frame [headerByte initiator destination]) := by
  have hbyte : headerByte initiator destination ≤ 255 := by
    rw [headerByte, ← Nat.shiftLeft_add_eq_or_of_lt (by omega), Nat.shiftLeft_eq]
    omega
  exact ⟨hbyte, by simp [assemble, AsmLine.wellFormed, hi, hd, hbyte]⟩

/-- Settles O36: `assemble_frame` for a frame, and `assemble_poll` for a poll as a frame. -/
theorem pseudoInstructionsExpand : Obligations.PseudoInstructionsExpand := by
  refine ⟨fun b hb => ?_, fun bs h1 h16 hbs => assemble_frame h1 h16 hbs, fun initiator destination hi hd => ?_⟩
  · have hwf : (AsmLine.sendByte b).wellFormed = true := decide_eq_true hb
    rw [assemble, if_pos hwf]
    simp only [sendByteInstrs, List.map_map, Function.comp_def, encode_sendBit_ofBool]
  · obtain ⟨hbyte, hpoll⟩ := assemble_poll hi hd
    refine ⟨hpoll, ?_⟩
    rw [hpoll, assemble_frame (by simp) (by simp) (by simpa using hbyte)]
    simp [headerByte]

end Sys2Proof
end

section
/-! PROOF. The frame program is the source's transmitter (30_encoding.md R59): issuing a word and running it, the
LOAD_FB words of a frame, and its TRANSMIT word over the cells they wrote. -/

namespace Sys2Proof.Machine

/-! ### The bytes of a frame in the frame buffer -/

/-- Writing the bytes of a frame to the cells from `i` on, in order (R46, R58). -/
def Memory.writeFrom (m : Memory) (i : Nat) (bytes : List Byte) : Memory :=
  (bytes.zipIdx i).foldl (fun m x => m.write x.2 x.1) m

theorem Memory.writeFrom_cons (m : Memory) (i : Nat) (b : Byte) (bytes : List Byte) :
    m.writeFrom i (b :: bytes) = (m.write i b).writeFrom (i + 1) bytes := rfl

theorem Memory.read_writeFrom_below {m : Memory} {i a : Nat} (bytes : List Byte) (ha : a < i) :
    (m.writeFrom i bytes).read a = m.read a := by
  induction bytes generalizing m i with
  | nil => rfl
  | cons b bytes ih => rw [Memory.writeFrom_cons, ih (by omega), Memory.read_write_other _ _ _ _ (by omega)]

/-- The bytes written from a cell on read back as the frame that starts there (R79). -/
theorem Memory.readFrom_writeFrom (m : Memory) (i : Nat) (bytes : List Byte) :
    (m.writeFrom i bytes).readFrom i bytes.length = .ok bytes := by
  induction bytes generalizing m i with
  | nil => rfl
  | cons b bytes ih =>
    have hfirst : (m.writeFrom i (b :: bytes)).read i = some b := by
      rw [Memory.writeFrom_cons, Memory.read_writeFrom_below _ (Nat.lt_succ_self i), Memory.read_write_same]
    rw [List.length_cons, Memory.readFrom, hfirst, Memory.writeFrom_cons, ih]

/-! ### Running the words the host issues -/

/-- Two steps issue a word and run it: the next move puts it on CMD, and the block takes it off (R21, R27). -/
theorem run_issue {s t : State} {w : Word} (k : Nat) (hseq : s.seq = .idle) (hcmd : s.cmd = none)
    (hm : s.nextMove = .issue w) (h : runWord w s.moveTaken = .next t) : core.run (k + 2) s = core.run k t := by
  have hissue : step s = .next { s.moveTaken with cmd := some w } := by
    rw [step_of_no_cmd hseq hcmd, hostMove, hm]
  have htaken : ({ s.moveTaken with cmd := some w } : State).takeCommand = s.moveTaken := by
    rw [State.takeCommand, ← hcmd]
    rfl
  have hrun : step { s.moveTaken with cmd := some w } = .next t :=
    (step_of_cmd (s := { s.moveTaken with cmd := some w }) hseq rfl).trans ((congrArg (runWord w) htaken).trans h)
  exact (run_of_step (k + 1) hissue).trans (run_of_step k hrun)

/-- The state from which the host goes on with the moves `rest`, the cells holding `m`. -/
def State.onward (s : State) (m : Memory) (rest : List HostMove) : State :=
  { s with fb := m, moves := { s.moves with scripted := rest } }

/-- The host's moves that issue the words of these instructions in order (R21). -/
def issueMoves (is : List Instr) : List HostMove := is.map fun i => .issue (encode i)

/-- Where the moves list an instruction's word next, two steps execute it. -/
theorem run_issue_instr {s t : State} {i : Instr} {rest : List HostMove} (k : Nat) (hseq : s.seq = .idle)
    (hcmd : s.cmd = none) (hm : s.moves.scripted = .issue (encode i) :: rest)
    (h : exec i (s.onward s.fb rest) = .next t) : core.run (k + 2) s = core.run k t := by
  have hmove : s.nextMove = .issue (encode i) := by rw [State.nextMove, Oracle.head, hm]
  have htaken : s.moveTaken = s.onward s.fb rest := by rw [State.moveTaken, Oracle.tail, hm]; rfl
  exact run_issue k hseq hcmd hmove (by rw [runWord_of_command (decode_encode i), htaken, h])

/-- The LOAD_FB of a frame's byte `i` stores it in cell `i` (R58, R76). -/
theorem exec_loadFb_byte (s : State) {i : Nat} (hi : i < 16) (b : Byte) :
    exec (.loadFb (BitVec.ofNat 4 i) (BitVec.ofNat 8 b.toNat)) s = .next ((s.setCell i b).setResult resultOk) := by
  have hcell : cellIndex (BitVec.ofNat 4 i) = i := Nat.mod_eq_of_lt hi
  rw [exec, execLoadFb, hcell, BitVec.ofNat_toNat, BitVec.setWidth_eq]

/-- The LOAD_FB words of a frame, two steps each, write its bytes; RESULT is the last one's (R46, R76). -/
theorem run_loads {s : State} {i : Nat} {bytes : List Byte} {rest : List HostMove} (k : Nat)
    (hi : i + bytes.length ≤ 16) (hseq : s.seq = .idle) (hcmd : s.cmd = none)
    (hm : s.moves.scripted = issueMoves (loadsFrom i (bytes.map BitVec.toNat)) ++ rest) :
    ∃ r, core.run (k + 2 * bytes.length) s =
      core.run k ((s.onward (s.fb.writeFrom i bytes) rest).setResult r) := by
  induction bytes generalizing s i with
  | nil => exact ⟨s.result, by rw [← show s.moves.scripted = rest from hm]; rfl⟩
  | cons b bytes ih =>
    rw [List.length_cons] at hi
    have hload := run_issue_instr (k + 2 * bytes.length) hseq hcmd hm (exec_loadFb_byte _ (by omega) b)
    obtain ⟨r, hr⟩ := ih (i := i + 1)
      (s := ((s.onward s.fb (issueMoves (loadsFrom (i + 1) _) ++ rest)).setCell i b).setResult resultOk)
      (by omega) hseq hcmd rfl
    exact ⟨r, hload.trans hr⟩

/-! ### The transmitter -/

/-- TRANSMIT over a frame buffer that holds the bytes is the transmitter on them (R59). -/
theorem exec_transmit_eq_transmitSequence {s : State} {bytes : List Byte} (h1 : 1 ≤ bytes.length)
    (h16 : bytes.length ≤ 16) (hb : s.fb.readFrame bytes.length = .ok bytes) :
    exec (.transmit (BitVec.ofNat 5 bytes.length)) s = .next (transmitSequence bytes s) := by
  have hn : frameLength (BitVec.ofNat 5 bytes.length) = bytes.length := Nat.mod_eq_of_lt (by omega)
  have hlegal : lengthLegal bytes.length = true := (lengthLegal_iff _).2 ⟨h1, h16⟩
  rw [exec, execTransmit, hn, if_pos hlegal, hb, transmitSequence, if_pos hlegal]

/-- Settles O28: `run_loads` and then the TRANSMIT word, which does not look at the RESULT the loads left. -/
theorem theFrameProgramIsTheTransmitter : Obligations.TheFrameProgramIsTheTransmitter := by
  refine ⟨fun bytes s rest h1 h16 hseq hcmd hm => ?_, fun bytes s hlen => ?_⟩
  · rw [frameInstrs, List.map_append, List.append_assoc, List.length_map] at hm
    obtain ⟨r, hr⟩ := run_loads 2 (by omega) hseq hcmd hm
    have htransmit := exec_transmit_eq_transmitSequence (s := s.onward (s.fb.writeFrom 0 bytes) rest) h1 h16
      (s.fb.readFrom_writeFrom 0 bytes)
    rw [← exec_setResult _ r] at htransmit
    rw [Nat.mul_add, Nat.add_comm, hr]
    exact run_issue_instr 0 hseq hcmd rfl htransmit
  · have hlegal : ¬ lengthLegal bytes.length = true := by
      rw [lengthLegal_iff]
      omega
    rw [transmitSequence, if_neg hlegal]
    rfl

end Sys2Proof.Machine
end

section
/-! PROOF. The line driver (41_line_driver.md R61 to R65): RELEASE, ASSERT and SAMPLE in closed form, what a redundant
write of DIR leaves of the waveform, and TRANSMIT on a wire that reads Low. -/

namespace Sys2Proof.Machine

open Sys2Proof.Config

/-! ### A redundant write of DIR -/

/-- Driving now what DIR already holds changes the drive at no time: up to now nothing is rewritten, and from now on
the drive was DIR's already (R62, R63). -/
theorem State.Inv.driveAt_redundant_drive {s : State} (hs : s.Inv) {d : Direction} (hd : s.dir = d) (τ : Nat) :
    driveAt (s.hist ++ [.drive s.timeUs d]) τ = driveAt s.hist τ := by
  rw [driveAt_append_drive]
  split
  · rw [hs.driveAt_from_now ‹_›, hd]
  · rfl

/-! ### RELEASE -/

/-- Settles O3: the redundant write is `State.Inv.driveAt_redundant_drive`, the level after it
`State.lineLevel_released`. -/
theorem releaseStopsDrivingTheWire : Obligations.ReleaseStopsDrivingTheWire := by
  refine ⟨⟨rfl, decode_encode .release⟩, fun s => rfl, ⟨rfl, rfl⟩, fun s t hs hd h τ => ?_, fun s t h => ?_⟩
  · cases h
    exact hs.driveAt_redundant_drive hd τ
  · cases h
    exact (State.lineLevel_released rfl).1

/-! ### ASSERT -/

/-- RELEASE, SEND_START and SEND_BIT alone release an asserted wire: a TRANSMIT that sends its frame has found the
block released (R63). -/
theorem Completes.asserted_or_releases {s t : State} {i : Instr} {ev : List Event} (h : Completes s i ev t)
    (hd : s.dir = .asserted) : t.dir = .asserted ∨ i = .release ∨ i = .sendStart ∨ ∃ v, i = .sendBit v := by
  cases h with
  | release => exact .inr (.inl rfl)
  | sendStart => exact .inr (.inr (.inl rfl))
  | sendBit v => exact .inr (.inr (.inr ⟨v, rfl⟩))
  | assert => exact .inl rfl
  | sample | waitAck | loadFb | invalidLength | busBusy => exact .inl hd
  | frame _ _ _ _ _ hreleased => cases hd.symm.trans hreleased

/-- A TRANSMIT of a legal length, its cells written and the wire Low, samples once and ends in BUS_BUSY (R80). -/
theorem exec_transmit_busBusy {n : BitVec 5} {s : State} (h1 : 1 ≤ n.toNat) (h16 : n.toNat ≤ 16)
    (hr : s.frameReady n.toNat) (hl : s.lineLevel = .low) :
    exec (.transmit n) s =
      .next { s.afterLineLevel with hist := s.hist ++ [.sample s.timeUs .low], result := resultBusBusy, seq := .idle } := by
  obtain ⟨bytes, -, hb⟩ := Memory.readFrame_of_ready hr
  have hlegal : lengthLegal (frameLength n) = true := (lengthLegal_iff _).2 ⟨h1, h16⟩
  rw [exec, execTransmit, if_pos hlegal, frameLength, hb]
  simp only
  rw [transmitFrame_low (s := s.setSeq .check) hl, State.afterLineLevel_setSeq]
  rfl

/-- Settles O4: `Completes.asserted_or_releases` says who can release the wire, and a block that asserts reads its own
Low, so its TRANSMIT finds the bus busy. -/
theorem assertPullsTheWireLow : Obligations.AssertPullsTheWireLow := by
  refine ⟨⟨rfl, decode_encode .assert⟩, fun s => rfl, ⟨rfl, rfl⟩, fun s t hs hd h τ => ?_, fun i s t hd h => ?_,
    fun n s hd h1 h16 hr => ?_⟩
  · cases h
    exact hs.driveAt_redundant_drive hd τ
  · obtain ⟨ev, hc⟩ := exec_completes h
    exact hc.asserted_or_releases hd
  · obtain ⟨hlow, hsame⟩ := State.lineLevel_asserted hd
    refine ⟨_, exec_transmit_busBusy h1 h16 hr hlow, rfl, ?_⟩
    rw [hsame]
    exact hd

/-! ### SAMPLE -/

/-- SAMPLE reads the wire, records what it read and puts it in LEVEL (R64). -/
theorem exec_sample (s : State) : exec .sample s =
    .next { s.afterLineLevel with hist := s.hist ++ [.sample s.timeUs s.lineLevel], result := resultSample s.lineLevel } := by
  rw [exec, execSample, State.afterLineLevel_eq]
  rfl

theorem resultSample_eq_ite (lvl : Level) : resultSample lvl = if lvl = .high then 0x0101 else 0x0001 := by
  cases lvl <;> rfl

theorem resultCode_resultSample (lvl : Level) : resultCode (resultSample lvl) = 1 := by
  cases lvl <;> rfl

/-- A released block whose environment will answer High and then Low (R30). -/
def highThenLow : State := { State.reset with levels := ⟨[.high, .low], 0⟩ }

/-- Settles O6: `exec_sample` with the level of the wire for each value of DIR; the two samples of `highThenLow`
differ. -/
theorem sampleReadsTheLevelOfTheWire : Obligations.SampleReadsTheLevelOfTheWire := by
  refine ⟨⟨rfl, decode_encode .sample⟩, fun s hd => ?_, fun s hd => ?_, ⟨rfl, rfl, rfl, rfl⟩,
    ⟨highThenLow, _, _, exec_sample _, exec_sample _, by decide⟩⟩
  · obtain ⟨hlevel, hsame⟩ := State.lineLevel_asserted hd
    rw [exec_sample, hlevel, hsame, resultSample_low]
  · obtain ⟨hlevel, hasked⟩ := State.lineLevel_released hd
    rw [exec_sample, hlevel, hasked, resultSample_eq_ite]
    rfl

/-! ### What the three commands have in common -/

/-- Reading the wire does not look at FB (R61). -/
theorem State.lineLevel_of_fb (s : State) (m : Memory) :
    ({ s with fb := m } : State).lineLevel = s.lineLevel ∧
      ({ s with fb := m } : State).afterLineLevel = { s.afterLineLevel with fb := m } := by
  obtain ⟨dir, _⟩ := s
  cases dir <;> exact ⟨rfl, rfl⟩

/-- Settles O7: RELEASE and ASSERT by their meanings, SAMPLE by `exec_sample` and `State.lineLevel_of_fb`. -/
theorem lineDriverCommandsCannotFail : Obligations.LineDriverCommandsCannotFail := by
  refine ⟨fun i s hi => ?_, fun d => ?_, rfl⟩
  · rcases hi with rfl | rfl | rfl
    · exact ⟨_, rfl, rfl, rfl, fun _ => rfl⟩
    · exact ⟨_, rfl, rfl, rfl, fun _ => rfl⟩
    · refine ⟨_, exec_sample s, resultCode_resultSample _, by rw [State.afterLineLevel_eq], fun m => ?_⟩
      obtain ⟨hlevel, hasked⟩ := s.lineLevel_of_fb m
      rw [exec_sample, hlevel, hasked]
  · cases d <;> simp [drivenLevel]

/-! ### The level of the wire -/

/-- The wire is Low where the block asserts or another device does (R119). -/
theorem wireLevelAt_eq_low_iff (h : List Event) (τ : Nat) (others : Level) :
    wireLevelAt h τ others = .low ↔ driveAt h τ = .asserted ∨ others = .low := by
  rw [wireLevelAt]
  cases driveAt h τ <;> simp

/-- Settles O5: the wire as the block reads it, and `wireLevelAt_eq_low_iff`. -/
theorem lineLevelIsTheWiredCombination : Obligations.LineLevelIsTheWiredCombination :=
  ⟨fun _ => State.lineLevel_asserted, fun _ => State.lineLevel_released,
    fun h τ => ⟨(wireLevelAt_eq_low_iff h τ .low).2 (.inr rfl), by simp [wireLevelAt_eq_low_iff]⟩⟩

end Sys2Proof.Machine
end

section
/-! PROOF. The bit engine (42_bit_engine.md R67 to R75): SEND_START and SEND_BIT as one command that sends a symbol,
WAIT_ACK in closed form, and the pulse of a symbol on the wire. -/

namespace Sys2Proof.Machine

open Sys2Proof.Config

/-! ### The two commands that send a symbol -/

/-- `s` once the block has sent the symbol `y`: a low phase, a high phase, and RESULT OK (R68, R69). -/
def State.afterSymbol (y : Symbol) (s : State) : State :=
  { s with dir := .released, timeUs := s.timeUs + (y.lowPhase + y.highPhase),
           hist := s.hist ++ pulseEvents s.timeUs y.lowPhase, result := resultOk }

theorem exec_sendStart (s : State) : exec .sendStart s = .next (s.afterSymbol .start) := by
  rw [exec, execSendStart, startSteps, pulseSteps_eq]
  rfl

theorem exec_sendBit (v : BitVec 1) (s : State) :
    exec (.sendBit v) s = .next (s.afterSymbol (.bit (bitOperand v))) := by
  rw [exec, execSendBit, bitSteps, pulseSteps_eq]
  rfl

theorem bitOperand_eq_beq (v : BitVec 1) : bitOperand v = (v == 1) := by
  revert v
  decide

/-- The low phase of SEND_BIT's bit as a number (R67). -/
theorem lowUs_bitOperand (v : BitVec 1) : lowUs (bitOperand v) = if v = 1 then 600 else 1500 := by
  revert v
  decide

/-- SEND_START and SEND_BIT each send one symbol, the same from every state, in 4500 or 2400 µs (R67). -/
theorem exec_eq_afterSymbol {i : Instr} (hi : i = .sendStart ∨ ∃ v, i = .sendBit v) :
    ∃ y : Symbol, y.lowPhase + y.highPhase = (if i = .sendStart then 4500 else 2400) ∧
      ∀ s, exec i s = .next (s.afterSymbol y) := by
  rcases hi with rfl | ⟨v, rfl⟩
  · exact ⟨.start, rfl, exec_sendStart⟩
  · refine ⟨.bit (bitOperand v), ?_, exec_sendBit v⟩
    rw [if_neg Instr.noConfusion]
    exact lowUs_add_highUs _

/-- Neither phase of a symbol is empty (R67). -/
theorem Symbol.phases_pos (y : Symbol) : 0 < y.lowPhase ∧ 0 < y.highPhase := by
  cases y with
  | start => decide
  | bit v => cases v <;> decide

/-! ### A pulse begun while asserted -/

/-- Begun while asserted, a pulse writes nothing new until its low phase ends: its assert is redundant (R68, R69). -/
theorem State.Inv.driveAt_pulse {s : State} (hs : s.Inv) (hd : s.dir = .asserted) {low τ : Nat}
    (hτ : τ < s.timeUs + low) : driveAt (s.hist ++ pulseEvents s.timeUs low) τ = driveAt s.hist τ := by
  rw [pulseEvents, List.append_cons, driveAt_append_drive, if_neg (Nat.not_le.2 hτ), hs.driveAt_redundant_drive hd]

/-- A symbol sent while asserted leaves the wire as it was up to now, and low until its low phase ends (R68, R69). -/
theorem State.Inv.driveAt_afterSymbol {s : State} (hs : s.Inv) (hd : s.dir = .asserted) (y : Symbol) :
    (∀ τ, τ ≤ s.timeUs → driveAt (s.afterSymbol y).hist τ = driveAt s.hist τ) ∧
      (∀ τ, s.timeUs ≤ τ → τ < s.timeUs + y.lowPhase → driveAt (s.afterSymbol y).hist τ = .asserted) := by
  constructor
  · intro τ hτ
    exact hs.driveAt_pulse hd (hτ.trans_lt (Nat.lt_add_of_pos_right y.phases_pos.1))
  · intro τ hfrom hτ
    exact (hs.driveAt_pulse hd hτ).trans ((hs.driveAt_from_now hfrom).trans hd)

/-- Settles O8: `exec_sendStart`, and `State.Inv.driveAt_afterSymbol` for the start while asserted. -/
theorem sendStartSendsTheStartBit : Obligations.SendStartSendsTheStartBit := by
  refine ⟨⟨rfl, decode_encode .sendStart⟩, exec_sendStart, ⟨rfl, rfl⟩, fun s t hs hd h => ?_⟩
  rw [exec_sendStart] at h
  cases h
  exact hs.driveAt_afterSymbol hd .start

/-- Settles O9: `exec_sendBit` with the two lengths of `lowUs_bitOperand`, `State.Inv.driveAt_afterSymbol` for the start
while asserted, and `selected_eq_none_iff` for the words with OP 4 that hold more than one bit. -/
theorem sendBitSendsOneDataBit : Obligations.SendBitSendsOneDataBit := by
  refine ⟨⟨rfl, decode_encode (.sendBit 0), rfl, decode_encode (.sendBit 1)⟩, fun v s => ?_, ⟨rfl, rfl⟩,
    fun v s t hs hd h => ?_, fun w hop hhigh i h => ?_⟩
  · rw [exec_sendBit, State.afterSymbol, Symbol.lowPhase, Symbol.highPhase, lowUs_add_highUs, lowUs_bitOperand]
    rfl
  · rw [exec_sendBit] at h
    cases h
    rw [← lowUs_bitOperand]
    exact hs.driveAt_afterSymbol hd (.bit (bitOperand v))
  · have hnone : selected w.toNat = none := (selected_eq_none_iff _).2 (.inr (.inr (.inl ⟨hop, hhigh⟩)))
    rw [← decode_instr?, h] at hnone
    cases hnone

/-! ### WAIT_ACK -/

/-- WAIT_ACK records one ACK wait, lets it pass and puts its outcome in ACKED (R70). -/
theorem exec_waitAck (s : State) : exec .waitAck s =
    .next { s with timeUs := s.timeUs + ackWaitUs s.ackOutcome, acks := s.afterAckOutcome.acks,
                   hist := s.hist ++ [.ackWait s.timeUs s.ackOutcome], result := resultWaitAck s.ackOutcome } := by
  rw [exec, execWaitAck, ackSteps, State.afterAckOutcome_eq]
  rfl

/-- The outcome of an ACK wait, and the answers it leaves, depend on DIR and the answers to come alone (R70). -/
theorem State.ackOutcome_congr {s u : State} (hd : s.dir = u.dir) (ha : s.acks = u.acks) :
    s.ackOutcome = u.ackOutcome ∧ s.afterAckOutcome.acks = u.afterAckOutcome.acks := by
  cases hu : u.dir <;>
    simp [State.ackOutcome, State.afterAckOutcome, State.envAckAt, State.askedAck, hd.trans hu, hu, ha]

/-- Settles O10: the ACK wait of each value of DIR (`ackSteps_asserted`, `ackSteps_released`); a state after reset whose
environment will answer `Ack(e)` shows that every `e` is possible. -/
theorem waitAckWaitsForAnAcknowledgement : Obligations.WaitAckWaitsForAnAcknowledgement := by
  refine ⟨⟨rfl, decode_encode .waitAck⟩, fun s hd => ?_, fun s e hd hans => ?_, fun s hd hans => ?_,
    ⟨rfl, rfl, rfl, rfl⟩, fun e => ⟨{ State.reset with acks := ⟨[.ack e], 0⟩ }, rfl, rfl⟩⟩
  · obtain ⟨hout, hsteps⟩ := ackSteps_asserted hd
    rw [exec, execWaitAck, hsteps, hout, resultWaitAck_ack]
    rfl
  · obtain ⟨hout, hsteps⟩ := ackSteps_released hd
    rw [exec, execWaitAck, hsteps, hout, hans, resultWaitAck_ack]
    rfl
  · obtain ⟨hout, hsteps⟩ := ackSteps_released hd
    rw [exec, execWaitAck, hsteps, hout, hans, resultWaitAck_nack]
    rfl

/-! ### What the low phase carries -/

/-- One pulse is one low pulse on the wire, as long as its low phase (R73). -/
theorem lowPulses_pulseEvents (t : Nat) {low : Nat} (hlow : 0 < low) : lowPulses (pulseEvents t low) = [(t, low)] := by
  have hsettled : settleDrives (drivesOf (pulseEvents t low)) = [(t, .asserted), (t + low, .released)] :=
    settleDrives_cons fun y hy => by
      rw [List.mem_singleton.1 hy]
      exact (Nat.lt_add_of_pos_right hlow).ne
  rw [lowPulses, hsettled]
  simp [lowPulsesFrom]

/-- A low phase reads as a symbol exactly when it has the symbol's length: no two symbols share one (R73). -/
theorem symbolOf_eq_some_iff (low : Nat) (y : Symbol) : symbolOf low = some y ↔ low = y.lowPhase := by
  constructor
  · intro h
    rw [symbolOf] at h
    split_ifs at h <;> cases h <;> assumption
  · rintro rfl
    cases y with
    | start => rfl
    | bit v => exact symbolOf_lowUs v

/-- What a sent symbol puts on the wire: one low pulse that reads back as the symbol (R73). -/
theorem Symbol.lowPulses_symbolsOf (y : Symbol) (t : Nat) :
    lowPulses (pulseEvents t y.lowPhase) = [(t, y.lowPhase)] ∧ symbolsOf (pulseEvents t y.lowPhase) = [some y] := by
  have hpulse := lowPulses_pulseEvents t y.phases_pos.1
  refine ⟨hpulse, ?_⟩
  rw [symbolsOf, hpulse, List.map_singleton, (symbolOf_eq_some_iff _ y).2 rfl]

/-- Settles O11: `Symbol.lowPulses_symbolsOf` for the symbol each command sends, and `symbolOf_eq_some_iff`. -/
theorem theLowPhaseCarriesTheSymbol : Obligations.TheLowPhaseCarriesTheSymbol := by
  refine ⟨fun v s t h => ?_, fun s t h => ?_, symbolOf_eq_some_iff⟩
  · rw [exec_sendBit] at h
    cases h
    obtain ⟨hpulse, hsymbol⟩ := (Symbol.bit (bitOperand v)).lowPulses_symbolsOf s.timeUs
    refine ⟨_, rfl, ?_, ?_, congrArg (s.timeUs + ·) (lowUs_add_highUs _)⟩
    · rw [hpulse, Symbol.lowPhase, lowUs_bitOperand]
    · rw [hsymbol, bitOperand_eq_beq]
  · rw [exec_sendStart] at h
    cases h
    obtain ⟨hpulse, hsymbol⟩ := Symbol.start.lowPulses_symbolsOf s.timeUs
    exact ⟨_, rfl, hpulse, hsymbol, rfl⟩

/-! ### What the three commands depend on and record -/

/-- Settles O12: sending a symbol reads none of the environment's answers and records its pulse alone. -/
theorem bitEngineDoesNotWatchTheWire : Obligations.BitEngineDoesNotWatchTheWire := by
  intro i s hi
  obtain ⟨y, -, hexec⟩ := exec_eq_afterSymbol hi
  exact ⟨_, hexec s, fun l a => hexec _, pulseEvents s.timeUs y.lowPhase, rfl, rfl, rfl⟩

/-- Settles O13: a pulse is dated by TIME_US alone, and an ACK wait ends by `State.ackOutcome_congr`. -/
theorem theBitEngineKeepsNoContext : Obligations.TheBitEngineKeepsNoContext := by
  intro i s u hi hd ht ha
  rcases or_assoc.2 hi with hi | rfl
  · obtain ⟨y, -, hexec⟩ := exec_eq_afterSymbol hi
    refine ⟨_, _, pulseEvents s.timeUs y.lowPhase, hexec s, hexec u, rfl, ?_, rfl, ?_, rfl, ha⟩
    · rw [ht]
      rfl
    · exact congrArg (· + (y.lowPhase + y.highPhase)) ht
  · obtain ⟨hout, hacks⟩ := State.ackOutcome_congr hd ha
    refine ⟨_, _, [.ackWait s.timeUs s.ackOutcome], exec_waitAck s, exec_waitAck u, rfl, ?_, hd, ?_, ?_, hacks⟩
    · rw [ht, hout]
    · simp only [ht, hout]
    · exact congrArg resultWaitAck hout

/-- Settles O14: a sent symbol records its pulse, whose release is within its period as the high phase is not empty;
WAIT_ACK records its ACK wait alone. -/
theorem everyBitAppendsTwoDrives : Obligations.EveryBitAppendsTwoDrives := by
  refine ⟨fun i s t hi h => ?_, fun s t h => ?_⟩
  · obtain ⟨y, hperiod, hexec⟩ := exec_eq_afterSymbol hi
    rw [hexec] at h
    cases h
    refine ⟨rfl, congrArg (s.timeUs + ·) hperiod, _, y.lowPhase, rfl, rfl, ?_⟩
    rw [State.afterSymbol, Nat.add_sub_cancel_left]
    exact Nat.lt_add_of_pos_right y.phases_pos.2
  · rw [exec_waitAck] at h
    cases h
    exact ⟨_, rfl, rfl⟩

end Sys2Proof.Machine
end

section
/-! PROOF. The frame transmitter (43_frame_transmitter.md R76 to R90): LOAD_FB, the outcomes of TRANSMIT one by one, and
the duration, the events and the RESULT of a frame from the answers to its ACK waits. -/

namespace Sys2Proof.Machine

open Sys2Proof.Config

/-! ### LOAD_FB -/

/-- Settles O16: the fields of the word side by side, and the laws of a read after a write. -/
theorem loadFbStoresOneByte : Obligations.LoadFbStoresOneByte := by
  intro idx val s
  refine ⟨?_, rfl, Memory.read_write_same .., fun a ha => Memory.read_write_other _ _ _ _ ha, rfl, rfl⟩
  have hlow : idx.toNat <<< 4 ||| 0x6 = idx.toNat * 16 + 6 := by
    rw [← Nat.shiftLeft_add_eq_or_of_lt (by omega), Nat.shiftLeft_eq]
  rw [encode_loadFb_toNat, Nat.or_assoc, hlow, ← Nat.shiftLeft_add_eq_or_of_lt (by omega), Nat.shiftLeft_eq]
  omega

/-- Settles O48: a read of another cell after the write. -/
theorem frameOfLoadFb : Obligations.FrameOfLoadFb := by
  intro idx val s t h
  cases h
  exact ⟨fun a ha => Memory.read_write_other _ _ _ _ ha, rfl⟩

/-! ### TRANSMIT before its bus-free check -/

/-- A TRANSMIT of a length outside 1 to 16 ends in INVALID_LENGTH (R78). -/
theorem exec_transmit_invalidLength {n : BitVec 5} (hn : n.toNat = 0 ∨ 16 < n.toNat) (s : State) :
    exec (.transmit n) s = .next { s with result := resultInvalidLength, seq := .idle } := by
  have hillegal : ¬ lengthLegal (frameLength n) = true := by
    rw [lengthLegal_iff, frameLength]
    omega
  rw [exec, execTransmit, if_neg hillegal]
  rfl

/-- Settles O18: `exec_transmit_invalidLength`. -/
theorem transmitRefusesAnIllegalLength : Obligations.TransmitRefusesAnIllegalLength :=
  fun _ s hn => exec_transmit_invalidLength hn s

/-- Settles O19: reading the frame stops at the lowest unwritten cell. -/
theorem transmitFaultsOnAnUnwrittenByte : Obligations.TransmitFaultsOnAnUnwrittenByte := by
  intro n s i h16 hi hnone hbelow
  have hlegal : lengthLegal (frameLength n) = true := (lengthLegal_iff _).2 ⟨Nat.one_le_of_lt hi, h16⟩
  have hread : s.fb.readFrame n.toNat = .error i :=
    Memory.readFrom_error.2 ⟨Nat.zero_le i, by omega, hnone, fun k _ hk => hbelow k hk⟩
  rw [exec, execTransmit, if_pos hlegal, frameLength, hread]

/-! ### TRANSMIT past its bus-free check -/

/-- The events of a frame of these bytes that starts now (R80 to R86). -/
def State.frameEvents (s : State) (bytes : List Byte) : List Event :=
  [.sample s.timeUs .high] ++ pulseEvents s.timeUs 3700 ++
    blocksEvents bytes.length 0 (s.timeUs + 4500) (s.sentBlocks bytes)

/-- The state a frame of these bytes leaves (R81 to R86). -/
def State.afterFrame (s : State) (bytes : List Byte) : State :=
  { s with dir := .released, seq := .idle, timeUs := s.timeUs + 4500 + blocksUs (s.sentBlocks bytes),
           hist := s.hist ++ s.frameEvents bytes, levels := s.levels.tail,
           acks := s.acks.advance (s.sentBlocks bytes).length, result := s.frameResult bytes.length }

/-- A TRANSMIT of a legal length, its cells written and the wire High, sends the frame (R81 to R86). -/
theorem exec_transmit_afterFrame {n : BitVec 5} {s : State} {bytes : List Byte} (h1 : 1 ≤ n.toNat) (h16 : n.toNat ≤ 16)
    (hb : s.fb.readFrame n.toNat = .ok bytes) (hd : s.dir = .released) (hl : s.envLevelNow = .high) :
    exec (.transmit n) s = .next (s.afterFrame bytes) := by
  have hlegal : lengthLegal (frameLength n) = true := (lengthLegal_iff _).2 ⟨h1, h16⟩
  rw [exec, execTransmit, if_pos hlegal, frameLength, hb]
  exact congrArg Host.Outcome.next (transmitFrame_high (s := s.setSeq .check) hd hl)

/-- A frame buffer whose first cells hold these bytes reads as them (R77). -/
theorem Memory.readFrame_of_cells {m : Memory} {n : Nat} {bytes : List Byte} (hlen : bytes.length = n)
    (hcells : ∀ i (h : i < bytes.length), m.read i = some bytes[i]) : m.readFrame n = .ok bytes :=
  Memory.readFrom_ok.2 ⟨hlen, fun k hk => by rw [Nat.zero_add]; exact hcells k hk⟩

/-- Settles O21: `exec_transmit_afterFrame`. -/
theorem transmitSendsTheFrame : Obligations.TransmitSendsTheFrame := by
  intro n s bytes h1 h16 hlen hcells hd hl
  rw [exec_transmit_afterFrame h1 h16 (Memory.readFrame_of_cells hlen hcells) hd hl, ← hlen]
  rfl

/-! ### How many events a frame records -/

theorem bitsEvents_counts (t : Nat) (vs : List Bool) : driveCount (bitsEvents t vs) = 2 * vs.length ∧
    sampleCount (bitsEvents t vs) = 0 ∧ ackWaitCount (bitsEvents t vs) = 0 := by
  induction vs generalizing t with
  | nil => exact ⟨rfl, rfl, rfl⟩
  | cons v vs ih =>
    obtain ⟨hdrive, hsample, hack⟩ := ih (t + 2400)
    refine ⟨?_, hsample, hack⟩
    rw [bitsEvents, driveCount_append, hdrive, List.length_cons, Nat.mul_succ, Nat.add_comm]
    rfl

/-- A block records two drives for each of its nine bits, its release and one ACK wait (R82 to R84). -/
theorem blockEvents_counts (n i t : Nat) (b : Byte) (o : AckAnswer) : driveCount (blockEvents n i t b o) = 19 ∧
    sampleCount (blockEvents n i t b o) = 0 ∧ ackWaitCount (blockEvents n i t b o) = 1 := by
  obtain ⟨hdrive, hsample, hack⟩ := bitsEvents_counts t (blockBits n i b)
  rw [blockEvents, driveCount_append, sampleCount_append, ackWaitCount_append, hdrive, hsample, hack, blockBits_length]
  exact ⟨rfl, rfl, rfl⟩

theorem blocksEvents_counts (n i t : Nat) (l : List (Byte × AckAnswer)) :
    driveCount (blocksEvents n i t l) = 19 * l.length ∧ sampleCount (blocksEvents n i t l) = 0 ∧
      ackWaitCount (blocksEvents n i t l) = l.length := by
  induction l generalizing i t with
  | nil => exact ⟨rfl, rfl, rfl⟩
  | cons x l ih =>
    obtain ⟨b, o⟩ := x
    obtain ⟨hdrive, hsample, hack⟩ := ih (i + 1) (t + blockUs + ackWaitUs o)
    obtain ⟨hdrive', hsample', hack'⟩ := blockEvents_counts n i t b o
    rw [blocksEvents, driveCount_append, sampleCount_append, ackWaitCount_append, hdrive, hsample, hack, hdrive',
      hsample', hack', List.length_cons]
    omega

/-- A frame records one sample, the start bit's two drives, and for each block it sends 19 drives and an ACK wait
(R90). -/
theorem State.frameEvents_counts (s : State) (bytes : List Byte) :
    driveCount (s.frameEvents bytes) = 2 + 19 * (s.sentBlocks bytes).length ∧ sampleCount (s.frameEvents bytes) = 1 ∧
      ackWaitCount (s.frameEvents bytes) = (s.sentBlocks bytes).length := by
  obtain ⟨hdrive, hsample, hack⟩ := blocksEvents_counts bytes.length 0 (s.timeUs + 4500) (s.sentBlocks bytes)
  rw [State.frameEvents, driveCount_append, sampleCount_append, ackWaitCount_append, hdrive, hsample, hack]
  exact ⟨rfl, rfl, Nat.zero_add _⟩

/-- Every event is a drive, a sample or an ACK wait (R24). -/
theorem length_eq_counts (h : List Event) : h.length = driveCount h + sampleCount h + ackWaitCount h := by
  induction h with
  | nil => rfl
  | cons e h ih =>
    rw [driveCount] at ih ⊢
    cases e <;> simp only [List.length_cons, drivesOf, sampleCount, ackWaitCount] <;> omega

/-! ### The bus-free check -/

/-- A frame sends its first block, whatever the ACK wait answers (R82). -/
theorem State.sentBlocks_cons (s : State) (b : Byte) (rest : List Byte) :
    ∃ o l, s.sentBlocks (b :: rest) = (b, o) :: l := by
  cases h : s.envAckAt 0 with
  | ack e => exact ⟨_, _, State.sentBlocks_ack h b rest⟩
  | nack => exact ⟨_, _, State.sentBlocks_nack h b rest⟩

/-- A frame of at least one byte begins with its sample, the start bit and the first data bit's drive (R80, R81). -/
theorem State.frameEvents_begin (s : State) {bytes : List Byte} (h1 : 1 ≤ bytes.length) :
    ∃ rest, s.frameEvents bytes = [.sample s.timeUs .high, .drive s.timeUs .asserted,
      .drive (s.timeUs + 3700) .released, .drive (s.timeUs + 4500) .asserted] ++ rest := by
  cases bytes with
  | nil => cases h1
  | cons b bytes =>
    obtain ⟨o, l, hsent⟩ := s.sentBlocks_cons b bytes
    rw [State.frameEvents, hsent]
    exact ⟨_, rfl⟩

/-- Settles O20: `exec_transmit_busBusy` on a Low wire; on a High one the frame, which holds one sample, its first
event. -/
theorem transmitChecksTheBusOnce : Obligations.TransmitChecksTheBusOnce := by
  intro n s h1 h16 hr
  refine ⟨exec_transmit_busBusy h1 h16 hr, fun hl => ?_⟩
  obtain ⟨hd, hhigh⟩ := State.released_of_lineLevel_high hl
  obtain ⟨bytes, hlen, hb⟩ := Memory.readFrame_of_ready hr
  obtain ⟨rest, hbegin⟩ := s.frameEvents_begin (hlen ▸ h1)
  refine ⟨_, rest, exec_transmit_afterFrame h1 h16 hb hd hhigh, congrArg (s.hist ++ ·) hbegin, ?_⟩
  obtain ⟨-, hsample, -⟩ := s.frameEvents_counts bytes
  rw [hbegin] at hsample
  exact Nat.succ.inj hsample

/-! ### The answers to the ACK waits of a frame -/

theorem State.take_nextAcks (s : State) {k n : Nat} (h : k ≤ n) : (s.nextAcks n).take k = s.nextAcks k := by
  rw [State.nextAcks, ← List.map_take, List.take_range, Nat.min_eq_left h, State.nextAcks]

/-- The blocks a frame sends end as the environment answers, one question each (R85). -/
theorem State.sentBlocks_outcomes (s : State) (bytes : List Byte) :
    (s.sentBlocks bytes).map Prod.snd = s.nextAcks (blocksSent (s.nextAcks bytes.length)) := by
  have hle := blocksSent_le_length (s.nextAcks bytes.length)
  rw [State.nextAcks_length] at hle
  rw [State.sentBlocks, List.map_take, List.map_snd_zip (by rw [State.nextAcks_length]), s.take_nextAcks hle]

theorem State.sentBlocks_length (s : State) (bytes : List Byte) :
    (s.sentBlocks bytes).length = blocksSent (s.nextAcks bytes.length) := by
  rw [← List.length_map (f := Prod.snd), State.sentBlocks_outcomes, State.nextAcks_length]

/-- The blocks of a frame last as long as the outcomes of their ACK waits say, whatever their bytes (R88, R90). -/
theorem blocksUs_eq_sum (l : List (Byte × AckAnswer)) :
    blocksUs l = ((l.map Prod.snd).map fun o => 21600 + ackWaitUs o).sum := by
  induction l with
  | nil => rfl
  | cons x l ih => simp [blocksUs, ih]

theorem State.blocksUs_sentBlocks (s : State) (bytes : List Byte) :
    blocksUs (s.sentBlocks bytes) =
      ((List.range (blocksSent (s.nextAcks bytes.length))).map fun i => 21600 + ackWaitUs (s.envAckAt i)).sum := by
  rw [blocksUs_eq_sum, State.sentBlocks_outcomes, State.nextAcks, List.map_map]
  rfl

/-- A frame whose every block is acknowledged sends all its blocks (R86). -/
theorem State.nextAcks_acked {s : State} {n : Nat} (h : ∀ i, i < n → s.envAckAt i ≠ .nack) :
    allAcked (s.nextAcks n) = true ∧ blocksSent (s.nextAcks n) = n := by
  induction n generalizing s with
  | zero => exact ⟨rfl, rfl⟩
  | succ n ih =>
    obtain ⟨hall, hsent⟩ := ih (s := s.askedAck) fun i hi => h (i + 1) (Nat.succ_lt_succ hi)
    rw [State.nextAcks_succ]
    cases h0 : s.envAckAt 0 with
    | ack e => exact ⟨hall, congrArg Nat.succ hsent⟩
    | nack => exact absurd h0 (h 0 (Nat.succ_pos n))

/-- A frame whose first NACK is at block `k` sends its blocks up to that one (R85). -/
theorem State.nextAcks_nack {s : State} {n k : Nat} (hk : k < n) (h : ∀ i, i < k → s.envAckAt i ≠ .nack)
    (hnack : s.envAckAt k = .nack) : allAcked (s.nextAcks n) = false ∧ blocksSent (s.nextAcks n) = k + 1 := by
  induction k generalizing s n with
  | zero =>
    obtain ⟨n, rfl⟩ := Nat.exists_eq_add_one_of_ne_zero hk.ne'
    rw [State.nextAcks_succ, hnack]
    exact ⟨rfl, rfl⟩
  | succ k ih =>
    obtain ⟨n, rfl⟩ := Nat.exists_eq_add_one_of_ne_zero (Nat.ne_zero_of_lt hk)
    obtain ⟨hall, hsent⟩ := ih (s := s.askedAck) (Nat.lt_of_succ_lt_succ hk)
      (fun i hi => h (i + 1) (Nat.succ_lt_succ hi)) hnack
    rw [State.nextAcks_succ]
    cases h0 : s.envAckAt 0 with
    | ack e => exact ⟨hall, congrArg Nat.succ hsent⟩
    | nack => exact absurd h0 (h 0 (Nat.succ_pos k))

/-- The first blocks of a frame, acknowledged after `e i` µs each, last a block and its ACK time each (R90). -/
theorem State.sum_ackWaitUs_of_acked {s : State} {k : Nat} {e : Nat → Fin 2001}
    (h : ∀ i, i < k → s.envAckAt i = .ack (e i)) :
    ((List.range k).map fun i => 21600 + ackWaitUs (s.envAckAt i)).sum =
      ((List.range k).map fun i => 21600 + (e i).val).sum := by
  refine congrArg List.sum (List.map_congr_left fun i hi => ?_)
  rw [h i (List.mem_range.1 hi)]
  rfl

/-! ### A frame acknowledged throughout -/

/-- Settles O22: `State.nextAcks_acked` says that every block is sent. -/
theorem aFrameAckedThroughoutSucceeds : Obligations.AFrameAckedThroughoutSucceeds := by
  intro n s e h1 h16 hr hd hl hacks
  obtain ⟨bytes, hlen, hb⟩ := Memory.readFrame_of_ready hr
  obtain ⟨hall, hsent⟩ := State.nextAcks_acked (s := s) (n := n.toNat) fun i hi => by simp [hacks i hi]
  rw [← hlen] at hall hsent hacks ⊢
  obtain ⟨hdrive, hsample, hack⟩ := s.frameEvents_counts bytes
  rw [State.sentBlocks_length, hsent] at hdrive hack
  refine ⟨_, s.frameEvents bytes, exec_transmit_afterFrame h1 h16 hb hd hl, if_pos hall, rfl, rfl, ?_, rfl, hdrive,
    hsample, hack⟩
  rw [State.afterFrame, State.blocksUs_sentBlocks, hsent, State.sum_ackWaitUs_of_acked hacks]

/-! ### The first NACK -/

/-- The blocks of a frame end with the ACK wait of the last one sent (R84). -/
theorem blocksEvents_getLast? (n i t : Nat) (l : List (Byte × AckAnswer)) : (blocksEvents n i t l).getLast? =
    (l.map Prod.snd).getLast?.map fun o => .ackWait (t + blocksUs l - ackWaitUs o) o := by
  induction l generalizing i t with
  | nil => rfl
  | cons x l ih =>
    obtain ⟨b, o⟩ := x
    have hblock : (blockEvents n i t b o).getLast? = some (.ackWait (t + blockUs) o) := by
      rw [blockEvents, List.getLast?_append]
      rfl
    rw [blocksEvents, List.getLast?_append, ih, hblock, List.map_cons, List.getLast?_cons, blocksUs]
    cases hl : (l.map Prod.snd).getLast? with
    | none =>
      rw [List.getLast?_eq_none_iff, List.map_eq_nil_iff] at hl
      simp [hl, blocksUs, ← Nat.add_assoc]
    | some o' => simp [← Nat.add_assoc]

/-- Settles O23: `State.nextAcks_nack` says which blocks are sent, `blocksEvents_getLast?` what ends them. -/
theorem theFirstNackEndsTheFrame : Obligations.TheFirstNackEndsTheFrame := by
  intro n s e k h16 hk hr hd hl hacks hnack
  obtain ⟨bytes, hlen, hb⟩ := Memory.readFrame_of_ready hr
  obtain ⟨hall, hsent⟩ := State.nextAcks_nack hk (fun i hi => by simp [hacks i hi]) hnack
  rw [← hlen] at hall hsent
  have hresult : s.frameResult bytes.length = resultNotAcknowledged k := by
    rw [State.frameResult, hall, hsent]
    rfl
  obtain ⟨hcode, hblock, -, -, -⟩ := resultNotAcknowledged_fields k (by omega)
  rw [← hresult] at hcode hblock
  have hus : blocksUs (s.sentBlocks bytes) = ((List.range k).map fun i => 21600 + (e i).val).sum + 23600 := by
    rw [State.blocksUs_sentBlocks, hsent, List.range_succ, List.map_append, List.sum_append,
      State.sum_ackWaitUs_of_acked hacks]
    simp [hnack, ackWaitUs]
  obtain ⟨hdrive, hsample, hack⟩ := s.frameEvents_counts bytes
  rw [State.sentBlocks_length, hsent] at hdrive hack
  refine ⟨_, s.frameEvents bytes, exec_transmit_afterFrame (Nat.one_le_of_lt hk) h16 hb hd hl, hresult, hcode, hblock,
    rfl, rfl, ?_, rfl, hdrive, hsample, hack, ?_⟩
  · simp only [State.afterFrame, hus]
    omega
  · have hlast : ((s.sentBlocks bytes).map Prod.snd).getLast? = some .nack := by
      rw [State.sentBlocks_outcomes, hsent, State.nextAcks, List.range_succ, List.map_append, List.getLast?_append,
        ← hnack]
      rfl
    rw [State.frameEvents, List.getLast?_append, blocksEvents_getLast?, hlast]
    rfl

/-! ### A poll -/

/-- Settles O25: a frame of one block, sent whatever its ACK wait answers. -/
theorem aPollTellsWhetherADeviceAnswers : Obligations.APollTellsWhetherADeviceAnswers := by
  intro s b hcell hd hl
  have hb : s.fb.readFrame (1 : BitVec 5).toNat = .ok [b] :=
    Memory.readFrame_of_cells rfl fun i hi => by
      obtain rfl : i = 0 := Nat.lt_one_iff.1 hi
      exact hcell
  have hacks : s.nextAcks 1 = [s.envAckAt 0] := rfl
  have hsymbols : symbolsOf (s.frameEvents [b]) = (Symbol.start :: (blockBits 1 0 b).map Symbol.bit).map some := by
    rw [State.frameEvents, symbolsOf_frame, State.sentBlocks_bytes, List.length_singleton, hacks]
    cases s.envAckAt 0 <;> rfl
  obtain ⟨hok, hnack⟩ : (s.frameResult 1 = 0x0001 ↔ ∃ e, s.envAckAt 0 = .ack e) ∧
      (s.frameResult 1 = 0x0003 ↔ s.envAckAt 0 = .nack) := by
    rw [State.frameResult, hacks]
    cases s.envAckAt 0 with
    | ack e => simp [allAcked]
    | nack => simp [allAcked, blocksSent]
  refine ⟨_, s.frameEvents [b], exec_transmit_afterFrame (by decide) (by decide) hb hd hl, rfl, hok, hnack, ?_⟩
  rw [hsymbols, blockBits_eq (Nat.le_refl 1)]
  rfl

/-! ### The bytes of a frame -/

/-- Two frames of one length, sent from one state, differ in their bytes alone (R88). -/
theorem State.afterFrame_of_bytes (s : State) (m : Memory) {bytes other : List Byte}
    (hlen : other.length = bytes.length) :
    ({ s with fb := m } : State).afterFrame other =
        { s.afterFrame bytes with fb := m, hist := s.hist ++ s.frameEvents other } ∧
      (s.frameEvents other).length = (s.frameEvents bytes).length := by
  have hcount : (s.sentBlocks other).length = (s.sentBlocks bytes).length := by
    rw [State.sentBlocks_length, State.sentBlocks_length, hlen]
  have hus : blocksUs (s.sentBlocks other) = blocksUs (s.sentBlocks bytes) := by
    rw [State.blocksUs_sentBlocks, State.blocksUs_sentBlocks, hlen]
  constructor
  · change { s.afterFrame other with fb := m } = _
    rw [State.afterFrame, State.afterFrame, hus, hcount, hlen]
  · obtain ⟨hdrive, hsample, hack⟩ := s.frameEvents_counts bytes
    obtain ⟨hdrive', hsample', hack'⟩ := s.frameEvents_counts other
    rw [length_eq_counts, length_eq_counts, hdrive, hsample, hack, hdrive', hsample', hack', hcount]

/-- Settles O26: a length refused and a busy wire do not look at FB, and `State.afterFrame_of_bytes` is the frame. -/
theorem transmitIsIndifferentToTheBytes : Obligations.TransmitIsIndifferentToTheBytes := by
  intro n s t m hr hm h
  by_cases hn : n.toNat = 0 ∨ 16 < n.toNat
  · rw [exec_transmit_invalidLength hn] at h
    cases h
    exact ⟨_, exec_transmit_invalidLength hn _, rfl, rfl⟩
  obtain ⟨h1, h16⟩ : 1 ≤ n.toNat ∧ n.toNat ≤ 16 := by omega
  cases hl : s.lineLevel with
  | low =>
    obtain ⟨hlevel, hasked⟩ := s.lineLevel_of_fb m
    rw [exec_transmit_busBusy h1 h16 hr hl] at h
    cases h
    refine ⟨_, exec_transmit_busBusy (s := { s with fb := m }) h1 h16 hm (hlevel.trans hl), ?_, rfl⟩
    rw [hasked]
  | high =>
    obtain ⟨hd, hhigh⟩ := State.released_of_lineLevel_high hl
    obtain ⟨bytes, hlen, hb⟩ := Memory.readFrame_of_ready hr
    obtain ⟨other, hlen', hb'⟩ := Memory.readFrame_of_ready hm
    obtain ⟨hstate, hcount⟩ := s.afterFrame_of_bytes m (hlen'.trans hlen.symm)
    rw [exec_transmit_afterFrame h1 h16 hb hd hhigh] at h
    cases h
    refine ⟨_, exec_transmit_afterFrame (s := { s with fb := m }) h1 h16 hb' hd hhigh, hstate, ?_⟩
    rw [State.afterFrame, State.afterFrame, List.length_append, List.length_append]
    exact congrArg (s.hist.length + ·) hcount

end Sys2Proof.Machine
end

section
/-! PROOF. Exceptions (60_exceptions.md R91 to R103): that every command ends, how a TRANSMIT can end, and from that the
cause of each error code, what each error leaves behind, the order in which errors are found and what ends a run. -/

namespace Sys2Proof.Machine

open Sys2Proof.Config

/-! ### Every command ends -/

/-- Settles O39: `execTransmit_cases`; the other commands have one outcome each. -/
theorem everyCommandEnds : Obligations.EveryCommandEnds := by
  intro i s
  cases i with
  | transmit n =>
    rcases execTransmit_cases n s with ⟨-, he⟩ | ⟨h1, h16, ⟨k, hk, hcell, -, he⟩ | ⟨bytes, -, -, he⟩⟩
    · exact .inl ⟨_, he⟩
    · exact .inr ⟨n, k, rfl, h1, h16, hk, hcell, he⟩
    · exact .inl ⟨_, he⟩
  | release | assert | sample | sendStart | sendBit | waitAck | loadFb => exact .inl ⟨_, rfl⟩

/-- A move of the host answers a next state, unless a reset cuts the command it issues (R97, R108). -/
theorem hostMove_ends (s : State) : (∃ t, hostMove s = .next t) ∨
    ∃ w, s.nextMove = .issueCutByReset w ∧ hostMove s = .fault .resetDuringCommand := by
  rw [hostMove]
  cases hm : s.nextMove with
  | issueCutByReset w => exact .inr ⟨w, rfl, rfl⟩
  | issue | idle | readResult | reset => exact .inl ⟨_, rfl⟩

/-- Settles O55: the invariant leaves a word on CMD, which ends as `everyCommandEnds` says, or a move of the host. -/
theorem onlyTheTwoModelFaultsEndARun : Obligations.OnlyTheTwoModelFaultsEndARun := by
  intro s hs
  cases hcmd : s.cmd with
  | none =>
    rw [step_of_no_cmd hs.sequencerIdle hcmd]
    rcases hostMove_ends s with hnext | ⟨w, hm, hfault⟩
    · exact .inl hnext
    · exact .inr (.inr ⟨w, rfl, hm, hfault⟩)
  | some w =>
    rw [step_of_cmd hs.sequencerIdle hcmd]
    cases hw : decode w with
    | illegal why => exact .inl ⟨_, runWord_of_illegal hw _⟩
    | command i =>
      rw [runWord_of_command hw]
      rcases everyCommandEnds i s.takeCommand with hnext | ⟨n, k, rfl, h1, h16, hk, hcell, hfault⟩
      · exact .inl hnext
      · exact .inr (.inl ⟨w, n, k, rfl, hw, h1, h16, hk, hcell, hfault⟩)

/-! ### The codes of RESULT -/

@[simp] theorem resultCode_resultOk : resultCode resultOk = 1 := rfl

@[simp] theorem resultCode_resultBusBusy : resultCode resultBusBusy = 2 := rfl

@[simp] theorem resultCode_resultInvalidLength : resultCode resultInvalidLength = 4 := rfl

@[simp] theorem resultCode_resultIllegalCommand : resultCode resultIllegalCommand = 5 := rfl

theorem resultCode_resultWaitAck (o : AckAnswer) : resultCode (resultWaitAck o) = 1 := by
  cases o with
  | ack e => rw [resultWaitAck_ack]; rfl
  | nack => rfl

/-- The commands other than TRANSMIT end in OK (R92 to R95). -/
theorem resultCode_of_not_transmit {i : Instr} {s t : State} (h : exec i s = .next t) (hi : ∀ n, i ≠ .transmit n) :
    resultCode t.result = 1 := by
  cases i with
  | transmit n => exact absurd rfl (hi n)
  | sample =>
    cases h
    exact resultCode_resultSample _
  | waitAck =>
    cases h
    exact resultCode_resultWaitAck _
  | release | assert | sendStart | sendBit | loadFb =>
    cases h
    rfl

/-! ### How a TRANSMIT ends -/

/-- The first NACK to the ACK waits of a frame of `n` bytes is at block `k` (R85). -/
structure State.FirstNack (s : State) (n k : Nat) : Prop where
  sent : k < n
  nack : s.envAckAt k = .nack
  acked : ∀ j, j < k → s.envAckAt j ≠ .nack

theorem State.FirstNack.unique {s : State} {n k l : Nat} (hk : s.FirstNack n k) (hl : s.FirstNack n l) : k = l := by
  rcases Nat.lt_trichotomy k l with hlt | heq | hlt
  · exact absurd hk.nack (hl.acked k hlt)
  · exact heq
  · exact absurd hl.nack (hk.acked l hlt)

/-- Every ACK wait of a frame ends in an ACK, or there is a first that does not. -/
theorem State.acked_or_firstNack (s : State) (n : Nat) :
    (∀ j, j < n → s.envAckAt j ≠ .nack) ∨ ∃ k, s.FirstNack n k := by
  induction n with
  | zero => exact .inl fun j hj => absurd hj (Nat.not_lt_zero j)
  | succ n ih =>
    rcases ih with hacked | ⟨k, hk⟩
    · by_cases hn : s.envAckAt n = .nack
      · exact .inr ⟨n, Nat.lt_succ_self n, hn, hacked⟩
      · exact .inl fun j hj => (Nat.lt_succ_iff_lt_or_eq.1 hj).elim (hacked j) fun heq => heq ▸ hn
    · exact .inr ⟨k, Nat.lt_succ_of_lt hk.sent, hk.nack, hk.acked⟩

/-- The frame goes on up to that block and reports it (R85). -/
theorem State.FirstNack.frameResult {s : State} {n k : Nat} (h : s.FirstNack n k) :
    s.frameResult n = resultNotAcknowledged k ∧ blocksSent (s.nextAcks n) = k + 1 := by
  obtain ⟨hall, hsent⟩ := State.nextAcks_nack h.sent h.acked h.nack
  rw [State.frameResult, hall, hsent]
  exact ⟨rfl, rfl⟩

/-- How long the blocks of that frame take (R90). -/
theorem State.FirstNack.blocksUs {s : State} {bytes : List Byte} {k : Nat} (h : s.FirstNack bytes.length k) :
    blocksUs (s.sentBlocks bytes) =
      ((List.range k).map fun i => 21600 + ackWaitUs (s.envAckAt i)).sum + 21600 + 2000 := by
  rw [State.blocksUs_sentBlocks, h.frameResult.2, List.range_succ, List.map_append, List.sum_append,
    List.map_singleton, List.sum_singleton, h.nack]
  rfl

/-- How a TRANSMIT of `n` bytes that answers a next state has ended: each error with its cause and the state it
leaves (R92 to R94), or OK. -/
inductive TransmitEnds (s : State) (n : Nat) : State → Prop
  | invalidLength (hn : n = 0 ∨ 16 < n) :
      TransmitEnds s n { s with result := resultInvalidLength, seq := .idle }
  | busBusy (h1 : 1 ≤ n) (h16 : n ≤ 16) (hl : s.lineLevel = .low) :
      TransmitEnds s n { s.afterLineLevel with hist := s.hist ++ [.sample s.timeUs .low], result := resultBusBusy,
                                               seq := .idle }
  | acknowledged (t : State) (h1 : 1 ≤ n) (h16 : n ≤ 16) (hl : s.lineLevel = .high)
      (hacked : ∀ j, j < n → s.envAckAt j ≠ .nack) (hr : t.result = resultOk) : TransmitEnds s n t
  | notAcknowledged (bytes : List Byte) (k : Nat) (h16 : n ≤ 16) (hl : s.lineLevel = .high)
      (hlen : bytes.length = n) (hk : s.FirstNack n k) : TransmitEnds s n (s.afterFrame bytes)

/-- A TRANSMIT of a legal length that answers a next state has found its cells written (R79). -/
theorem frameReady_of_exec_transmit {n : BitVec 5} {s t : State} (h : exec (.transmit n) s = .next t)
    (h1 : 1 ≤ n.toNat) (h16 : n.toNat ≤ 16) : s.frameReady n.toNat := by
  change execTransmit n s = .next t at h
  rcases execTransmit_cases n s with ⟨hn, -⟩ | ⟨-, -, ⟨k, -, -, -, he⟩ | ⟨bytes, -, hb, -⟩⟩
  · omega
  · cases he.symm.trans h
  · exact State.frameReady_of_readFrame hb

/-- The conditions of R96 one after another: the length, the bus, the ACK waits. -/
theorem exec_transmit_ends {n : BitVec 5} {s t : State} (h : exec (.transmit n) s = .next t) :
    TransmitEnds s n.toNat t := by
  by_cases hn : n.toNat = 0 ∨ 16 < n.toNat
  · cases (exec_transmit_invalidLength hn s).symm.trans h
    exact .invalidLength hn
  obtain ⟨h1, h16⟩ : 1 ≤ n.toNat ∧ n.toNat ≤ 16 := by omega
  have hr := frameReady_of_exec_transmit h h1 h16
  cases hl : s.lineLevel with
  | low =>
    cases (exec_transmit_busBusy h1 h16 hr hl).symm.trans h
    exact .busBusy h1 h16 hl
  | high =>
    obtain ⟨hd, hhigh⟩ := State.released_of_lineLevel_high hl
    obtain ⟨bytes, hlen, hb⟩ := Memory.readFrame_of_ready hr
    cases (exec_transmit_afterFrame h1 h16 hb hd hhigh).symm.trans h
    rcases s.acked_or_firstNack n.toNat with hacked | ⟨k, hk⟩
    · refine .acknowledged _ h1 h16 hl hacked ?_
      rw [State.afterFrame, hlen]
      exact if_pos (State.nextAcks_acked hacked).1
    · exact .notAcknowledged bytes k h16 hl hlen hk

/-- The RESULT of a frame whose first NACK is at block `k`, and its fields (R94). -/
theorem State.FirstNack.afterFrame_result {s : State} {bytes : List Byte} {n k : Nat} (h : s.FirstNack n k)
    (hlen : bytes.length = n) (h16 : n ≤ 16) : (s.afterFrame bytes).result = resultNotAcknowledged k ∧
      resultCode (s.afterFrame bytes).result = 3 ∧ (resultBlock (s.afterFrame bytes).result).toNat = k := by
  have hr : (s.afterFrame bytes).result = resultNotAcknowledged k := by
    rw [State.afterFrame, hlen]
    exact h.frameResult.1
  obtain ⟨hcode, hblock, -⟩ := resultNotAcknowledged_fields k (Nat.lt_of_lt_of_le h.sent h16)
  rw [hr]
  exact ⟨rfl, hcode, hblock⟩

/-! ### The cause of each error code -/

/-- Settles O40: the causes of `TransmitEnds` exclude each other, and the other commands end in OK. -/
theorem errorCodesNameTheirCauses : Obligations.ErrorCodesNameTheirCauses := by
  intro i s t h
  by_cases hi : ∃ n, i = .transmit n
  · obtain ⟨n, rfl⟩ := hi
    simp only [Instr.transmit.injEq, exists_eq_left']
    cases exec_transmit_ends h with
    | invalidLength hn =>
      exact ⟨by simp, by simp, iff_of_false (by simp) (by omega), by simp, by simpa using hn, fun _ => ⟨rfl, rfl⟩,
        fun _ => iff_of_false (by simp) (by omega), by simp⟩
    | busBusy h1 h16 hl =>
      have hn : ¬ (n.toNat = 0 ∨ 16 < n.toNat) := by omega
      exact ⟨by simp, by simp, by simp [h1, h16, hl], fun _ => ⟨rfl, rfl⟩, by simpa using hn, by simp, by simp [hl],
        by simp⟩
    | acknowledged _ h1 h16 hl hacked hr =>
      have hn : ¬ (n.toNat = 0 ∨ 16 < n.toNat) := by omega
      simp +contextual [hr, hn, hl, hacked]
    | notAcknowledged bytes k h16 hl hlen hk =>
      obtain ⟨hr, hcode, hblock⟩ := hk.afterFrame_result hlen h16
      have hn : ¬ (n.toNat = 0 ∨ 16 < n.toNat) := by have := hk.sent; omega
      rw [← BitVec.ofNat_toNat, hcode, hblock]
      refine ⟨by decide, by decide, by simp [hl], by simp, by simpa using hn, by simp, fun l => ?_, fun _ => hr⟩
      constructor
      · rintro ⟨-, rfl⟩
        exact ⟨h16, hk.sent, hl, hk.nack, hk.acked⟩
      · rintro ⟨-, hsent, -, hnack, hacked⟩
        exact ⟨rfl, hk.unique ⟨hsent, hnack, hacked⟩⟩
  · have hne : ∀ n, i ≠ .transmit n := fun n hn => hi ⟨n, hn⟩
    simp [resultCode_of_not_transmit h hne, hne]

/-! ### What an error leaves behind -/

/-- Settles O41: the states of `TransmitEnds`; an Illegal word leaves `State.illegalCommand`. -/
theorem whatAnErrorLeavesBehind : Obligations.WhatAnErrorLeavesBehind := by
  intro w s t h
  cases hw : decode w with
  | illegal why =>
    cases (runWord_of_illegal hw s).symm.trans h
    exact ⟨fun _ => rfl, by simp, by simp⟩
  | command i =>
    rw [runWord_of_command hw] at h
    by_cases hi : ∃ n, i = .transmit n
    · obtain ⟨n, rfl⟩ := hi
      cases exec_transmit_ends h with
      | invalidLength hn => exact ⟨fun _ => rfl, by simp, by simp⟩
      | busBusy h1 h16 hl =>
        rw [State.afterLineLevel_eq]
        exact ⟨by simp, fun _ => rfl, by simp⟩
      | acknowledged _ h1 h16 hl hacked hr => simp [hr]
      | notAcknowledged bytes k h16 hl hlen hk =>
        obtain ⟨-, hcode, hblock⟩ := hk.afterFrame_result hlen h16
        rw [← hlen] at hk
        obtain ⟨hdrive, hsample, hack⟩ := s.frameEvents_counts bytes
        rw [State.sentBlocks_length, hk.frameResult.2] at hdrive hack
        refine ⟨by simp [hcode], by simp [hcode], fun _ =>
          ⟨k, s.frameEvents bytes, hblock, rfl, rfl, ?_, rfl, hdrive, hsample, hack⟩⟩
        rw [State.afterFrame, hk.blocksUs, ← Nat.add_assoc, ← Nat.add_assoc]
    · simp [resultCode_of_not_transmit h fun n hn => hi ⟨n, hn⟩]

/-! ### The order in which errors are found -/

/-- Settles O42: one equation of `exec` for each line of R96. -/
theorem errorsAreFoundInOrder : Obligations.ErrorsAreFoundInOrder := by
  intro w s
  refine ⟨fun ⟨why, hw⟩ => ⟨_, runWord_of_illegal hw s, rfl⟩, fun n hw => ?_⟩
  rw [runWord_of_command hw]
  refine ⟨fun hn => ⟨_, exec_transmit_invalidLength hn s, rfl⟩, fun h1 h16 => ⟨fun i hi hcell hbelow => ?_,
    fun hr hl => ⟨_, exec_transmit_busBusy h1 h16 hr hl, rfl⟩, fun hr hl k hk hnack hacked => ?_⟩⟩
  · exact transmitFaultsOnAnUnwrittenByte n s i h16 hi hcell hbelow
  · obtain ⟨hd, hhigh⟩ := State.released_of_lineLevel_high hl
    obtain ⟨bytes, hlen, hb⟩ := Memory.readFrame_of_ready hr
    have hfirst : s.FirstNack n.toNat k := ⟨hk, hnack, hacked⟩
    exact ⟨_, exec_transmit_afterFrame h1 h16 hb hd hhigh, (hfirst.afterFrame_result hlen h16).1⟩

end Sys2Proof.Machine
end

section
/-! PROOF. Reset and hazards (70_reset_and_hazards.md R107 to R121): reset, how long each command takes, the spans each
command is made of, what a realization of them puts on the wire, and that a realized frame still reads back. -/

namespace Sys2Proof.Machine

open Sys2Proof.Config

/-! ### Reset -/

/-- Settles O1: `State.reset` is itself a reset block, and the history of one is empty. -/
theorem resetPutsEveryPieceOfStateInPlace : Obligations.ResetPutsEveryPieceOfStateInPlace := by
  intro r hr
  obtain ⟨s, rfl⟩ : ∃ s : State, r = s.resetBlock := hr.elim (fun h => ⟨State.reset, h⟩) id
  exact ⟨rfl, rfl, fun _ => rfl, rfl, rfl, rfl, rfl, rfl, fun _ => rfl, rfl⟩

/-- Settles O2: with no word on CMD a step is the host's next move. -/
theorem resetOnlyBetweenCommands : Obligations.ResetOnlyBetweenCommands := by
  refine ⟨fun s hseq hcmd => ?_, fun s => ⟨rfl, rfl, rfl⟩⟩
  rw [step_of_no_cmd hseq hcmd, hostMove]
  exact ⟨fun hm => by rw [hm], fun w hm => by rw [hm]⟩

/-! ### How long each command takes -/

/-- Settles O44: the state each outcome of `Completes` leaves; the blocks of a frame last as the answers to their ACK
waits say, whatever the bytes (`State.blocksUs_sentBlocks`). -/
theorem durationOfEachCommand : Obligations.DurationOfEachCommand := by
  refine ⟨fun i s t h => ?_, fun s t h => ?_, fun v s t h => ?_, fun w why s t hw h => ?_⟩
  · obtain ⟨ev, hc⟩ := exec_completes h
    cases hc with
    | release | assert | sample | loadFb | sendStart | sendBit | waitAck => rfl
    | invalidLength n hn => exact (if_neg (by omega)).mpr rfl
    | busBusy n h1 h16 hr hl => exact (if_neg (by simp [hl])).mpr rfl
    | frame n bytes h1 h16 hb hd hl =>
      have hlen : bytes.length = n.toNat := (Memory.readFrom_ok.1 hb).1
      refine (if_pos ⟨h1, h16, (State.lineLevel_released hd).1.trans hl⟩).mpr fun other hother => ?_
      rw [State.blocksUs_sentBlocks, State.blocksUs_sentBlocks, hlen, hother]
  · rw [exec_sendStart] at h
    cases h
    rfl
  · rw [exec_sendBit] at h
    cases h
    rw [← lowUs_bitOperand]
    rfl
  · rw [runWord_of_illegal hw] at h
    cases h
    rfl

/-- Each block lasts at most 23600 µs: nine bits and the ACK window (R90). -/
theorem blocksUs_le (l : List (Byte × AckAnswer)) : blocksUs l ≤ 23600 * l.length := by
  induction l with
  | nil => exact Nat.le_refl _
  | cons x l ih =>
    have hwait := ackWaitUs_le x.2
    simp only [blocksUs, blockUs, List.length_cons]
    omega

theorem State.blocksUs_sentBlocks_le (s : State) (bytes : List Byte) :
    blocksUs (s.sentBlocks bytes) ≤ 23600 * bytes.length :=
  (blocksUs_le _).trans (Nat.mul_le_mul_left _ (s.sentBlocks_length_le bytes))

/-- A state whose frame of 16 bytes takes as long as one can: every block is acknowledged at the end of the ACK
window. -/
def longestFrameState : State :=
  { State.reset with fb := (List.range 16).map fun i => (i, 0), levels := ⟨[.high], 0⟩,
                     acks := ⟨List.replicate 16 (.ack 2000), 0⟩ }

/-- Settles O27: only a frame can last longer than a start bit, and `State.blocksUs_sentBlocks_le` bounds its blocks;
`longestFrameState` reaches the bound. -/
theorem noCommandLastsLongerThanTheLongestFrame : Obligations.NoCommandLastsLongerThanTheLongestFrame := by
  constructor
  · intro i s t h
    obtain ⟨ev, hc⟩ := exec_completes h
    refine ⟨hc.inOrder.le, ?_⟩
    cases hc with
    | frame n bytes h1 h16 hb hd hl =>
      have hlen : bytes.length = n.toNat := (Memory.readFrom_ok.1 hb).1
      have hblocks := s.blocksUs_sentBlocks_le bytes
      refine ⟨?_, fun hi => absurd rfl (hi n)⟩
      simp only
      omega
    | waitAck =>
      have hwait := ackWaitUs_le s.ackOutcome
      simp only
      omega
    | release | assert | sample | loadFb | sendStart | sendBit | invalidLength | busBusy => simp
  · have hready : longestFrameState.frameReady (16 : BitVec 5).toNat := by
      unfold State.frameReady longestFrameState
      decide
    obtain ⟨t, -, ht, hr, -, -, htime, -⟩ := aFrameAckedThroughoutSucceeds 16 longestFrameState (fun _ => 2000)
      (by decide) (by decide) hready rfl rfl (by unfold longestFrameState; decide)
    exact ⟨_, t, ht, hr, htime⟩

/-! ### The spans of each command -/

/-- The spans of a command are those read from the events of its outcome (R117). -/
theorem Completes.spansOfCommand {s t : State} {i : Instr} {ev : List Event} (h : Completes s i ev t) :
    spansOfCommand s t = commandSpans t.timeUs ev := by
  rw [Machine.spansOfCommand, h.hist, List.drop_left]

/-- A pulse that is all a command records is one span. -/
theorem commandSpans_pulseEvents (t low high : Nat) :
    commandSpans (t + (low + high)) (pulseEvents t low) = [.pulse low high] :=
  commandSpans_pulse t low high [] _ rfl

/-- The high phase of SEND_BIT's bit as a number (R67). -/
theorem highUs_bitOperand (v : BitVec 1) : highUs (bitOperand v) = if v = 1 then 1800 else 900 := by
  revert v
  decide

/-- The pulse of SEND_BIT's bit is one span, with its phases as numbers (R67, R69). -/
theorem commandSpans_sendBit (t : Nat) (v : BitVec 1) :
    commandSpans (t + 2400) (pulseEvents t (lowUs (bitOperand v))) =
      [.pulse (if v = 1 then 600 else 1500) (if v = 1 then 1800 else 900)] := by
  rw [← lowUs_bitOperand, ← highUs_bitOperand, ← lowUs_add_highUs (bitOperand v)]
  exact commandSpans_pulseEvents ..

/-- Settles O56: the spans read from the events of each outcome of `Completes`; those of a frame are
`commandSpans_frame`. -/
theorem everyPhaseOfACommandIsASpan : Obligations.EveryPhaseOfACommandIsASpan := by
  intro i s t h
  obtain ⟨ev, hc⟩ := exec_completes h
  have hspans := hc.spansOfCommand
  cases hc with
  | release | assert | sample | loadFb | waitAck => exact hspans
  | sendStart => exact hspans.trans (commandSpans_pulseEvents s.timeUs 3700 800)
  | sendBit v => exact hspans.trans (commandSpans_sendBit s.timeUs v)
  | invalidLength n hn => exact (if_neg (by omega)).mpr hspans
  | busBusy n h1 h16 hr hl => exact (if_neg (by simp [hl])).mpr hspans
  | frame n bytes h1 h16 hb hd hl =>
    refine (if_pos ⟨h1, h16, (State.lineLevel_released hd).1.trans hl⟩).mpr fun other hother hcells => ?_
    cases hb.symm.trans (Memory.readFrame_of_cells hother hcells)
    exact hspans.trans (commandSpans_frame n.toNat s.timeUs _)

/-! ### Realizations of one span after another -/

/-- A realized pulse is a pulse within the tolerance (R116). -/
theorem realizes_pulse_cons {tol low high : Nat} {rest real : List Span}
    (h : realizes tol (.pulse low high :: rest) real = true) :
    ∃ low' high' real', real = .pulse low' high' :: real' ∧ pulseWithin tol low high low' high' = true ∧
      realizes tol rest real' = true := by
  obtain ⟨y, real', rfl, hy, hrest⟩ := realizes_cons h
  cases y with
  | pulse low' high' => exact ⟨low', high', real', rfl, hy, hrest⟩
  | drive | ackWait | gap => cases hy

/-- A realized ACK wait is an ACK wait within the tolerance (R116). -/
theorem realizes_ackWait_cons {tol us : Nat} {rest real : List Span}
    (h : realizes tol (.ackWait us :: rest) real = true) :
    ∃ us' real', real = .ackWait us' :: real' ∧ within tol us us' = true ∧ realizes tol rest real' = true := by
  obtain ⟨y, real', rfl, hy, hrest⟩ := realizes_cons h
  cases y with
  | ackWait us' => exact ⟨us', real', rfl, hy, hrest⟩
  | drive | pulse | gap => cases hy

/-- A realized write of DIR writes the same value. -/
theorem realizes_drive_cons {tol : Nat} {d : Direction} {rest real : List Span}
    (h : realizes tol (.drive d :: rest) real = true) :
    ∃ real', real = .drive d :: real' ∧ realizes tol rest real' = true := by
  obtain ⟨y, real', rfl, hy, hrest⟩ := realizes_cons h
  cases y with
  | drive d' => exact ⟨real', by rw [of_decide_eq_true hy], hrest⟩
  | pulse | ackWait | gap => cases hy

/-- Settles O57: each of these commands is one span (`everyPhaseOfACommandIsASpan`), and so is its realization. -/
theorem theBandOfEachPhase : Obligations.TheBandOfEachPhase := by
  constructor
  · intro tol r low high i s t real hi h hreal
    have hspans : spansOfCommand s t = [.pulse low high] := by
      rcases hi with ⟨rfl, rfl, rfl⟩ | ⟨rfl, rfl, rfl⟩ | ⟨rfl, rfl, rfl⟩ <;> exact everyPhaseOfACommandIsASpan _ s t h
    rw [hspans] at hreal
    obtain ⟨low', high', real', rfl, hband, hnil⟩ := realizes_pulse_cons hreal
    obtain ⟨⟨hlow, hlow'⟩, ⟨hhigh, hhigh'⟩, hus, hus'⟩ := (pulseWithin_iff ..).1 hband
    rw [realizes_nil hnil]
    exact ⟨low', high', rfl, rfl, hlow, hlow', hhigh, hhigh', hus, hus'⟩
  · intro tol r s t real h hreal
    have hspans : spansOfCommand s t = [.ackWait (ackWaitUs s.ackOutcome)] := everyPhaseOfACommandIsASpan _ s t h
    rw [hspans] at hreal
    obtain ⟨us', real', rfl, hband, hnil⟩ := realizes_ackWait_cons hreal
    obtain ⟨hus, hus'⟩ := (within_iff ..).1 hband
    rw [exec_waitAck] at h
    cases h
    rw [realizes_nil hnil, Nat.add_sub_cancel_left]
    exact ⟨rfl, hus, hus'⟩

/-! ### Reading a realized waveform -/

/-- Below 450 µs of tolerance, the low phase of a realized symbol is read as that symbol: the bands around 600, 1500
and 3700 µs are apart (R73, R116). -/
theorem symbolNear_of_realizedBy {y : Symbol} {tol low high : Nat} (htol : tol < 450)
    (h : y.realizedBy tol low high = true) : symbolNear tol low = some y := by
  obtain ⟨hlow, -, -⟩ := (realizedBy_iff ..).1 h
  simp only [symbolNear, within_iff, startLowUs, bit0LowUs, bit1LowUs]
  cases y with
  | start => exact if_pos hlow
  | bit v =>
    cases v <;> simp only [Symbol.lowPhase, lowUs, bit0LowUs, bit1LowUs] at hlow
    · rw [if_neg (by omega), if_pos hlow]
    · rw [if_neg (by omega), if_neg (by omega), if_pos hlow]

/-- Settles O15: one low phase reads as one symbol (`symbolNear_of_realizedBy`); at 450 µs a pulse of 1050 and 1350 µs
is on the edge of both bits' bands. -/
theorem realizedPulsesKeepSymbolsApart : Obligations.RealizedPulsesKeepSymbolsApart := by
  refine ⟨fun tol low high x y htol hx hy => ?_, fun y tol => ?_, 1050, 1350, rfl, rfl⟩
  · exact Option.some.inj ((symbolNear_of_realizedBy htol hx).symm.trans (symbolNear_of_realizedBy htol hy))
  · simp [realizedBy_iff]

/-- Below 450 µs of tolerance neither phase of a realized symbol is empty. -/
theorem Symbol.realized_phases_pos {y : Symbol} {tol low high : Nat} (htol : tol < 450)
    (h : y.realizedBy tol low high = true) : 0 < low ∧ 0 < high := by
  have hnominal : 450 ≤ y.lowPhase ∧ 450 ≤ y.highPhase := by
    cases y with
    | start => decide
    | bit v => cases v <;> decide
  obtain ⟨hlow, hhigh, -⟩ := (realizedBy_iff ..).1 h
  omega

/-- No event of a waveform is before its start. -/
theorem le_time_of_mem_waveEvents {t : Nat} {l : List Span} : ∀ e ∈ waveEvents t l, t ≤ e.time := by
  induction l generalizing t with
  | nil => exact fun _ he => nomatch he
  | cons x l ih =>
    intro e he
    rcases List.mem_append.1 he with he | he
    · cases x <;> simp only [Span.events, pulseEvents, List.mem_cons, List.not_mem_nil, or_false] at he
      · rw [he, Event.time]
      · rcases he with rfl | rfl <;> simp [Event.time]
    · exact (Nat.le_add_right ..).trans (ih e he)

/-- A release where no pulse is in progress ends no low pulse. -/
theorem lowPulses_release (t : Nat) (rest : List Event) :
    lowPulses (.drive t .released :: rest) = lowPulses rest := by
  simp only [lowPulses, drivesOf]
  cases drivesOf rest with
  | nil => rfl
  | cons y ds =>
    rw [settleDrives]
    split <;> rfl

/-- A pulse that ends before anything else happens is one low pulse, as long as its low phase (R73). -/
theorem lowPulses_pulse {t low : Nat} {rest : List Event} (hlow : 0 < low) (hrest : ∀ e ∈ rest, t + low < e.time) :
    lowPulses (pulseEvents t low ++ rest) = (t, low) :: lowPulses rest := by
  have hlater : ∀ y ∈ drivesOf rest, t + low < y.1 := fun y hy => hrest _ (drive_mem_of_mem_drivesOf hy)
  have hassert : ∀ y ∈ (t + low, Direction.released) :: drivesOf rest, t ≠ y.1 := by
    intro y hy
    rcases List.mem_cons.1 hy with rfl | hy
    · exact (Nat.lt_add_of_pos_right hlow).ne
    · have := hlater y hy
      omega
  change lowPulsesFrom none (settleDrives ((t, .asserted) :: (t + low, .released) :: drivesOf rest)) = _
  rw [settleDrives_cons hassert, settleDrives_cons fun y hy => (hlater y hy).ne]
  simp [lowPulsesFrom, lowPulses]

/-! ### The symbols that spans carry -/

/-- The pulses among these spans are those of the symbols, in order; between them the block only releases the wire and
waits for ACKs (R81 to R86). -/
inductive Carries : List Span → List Symbol → Prop
  | nil : Carries [] []
  | pulse (y : Symbol) {l : List Span} {ys : List Symbol} (h : Carries l ys) :
      Carries (.pulse y.lowPhase y.highPhase :: l) (y :: ys)
  | release {l : List Span} {ys : List Symbol} (h : Carries l ys) : Carries (.drive .released :: l) ys
  | ackWait (us : Nat) {l : List Span} {ys : List Symbol} (h : Carries l ys) : Carries (.ackWait us :: l) ys

theorem Carries.bits (vs : List Bool) {l : List Span} {ys : List Symbol} (h : Carries l ys) :
    Carries (bitSpans vs ++ l) (vs.map .bit ++ ys) := by
  induction vs with
  | nil => exact h
  | cons v vs ih => exact .pulse (.bit v) ih

/-- The blocks of a frame carry the bits of their bytes, in index order (R82, R83). -/
theorem carries_blocks (n i : Nat) (l : List (Byte × AckAnswer)) :
    Carries (blocksSpans n i l) (blockSymbols n i (l.map Prod.fst)) := by
  induction l generalizing i with
  | nil => exact .nil
  | cons x l ih =>
    rw [blocksSpans, blockSpans, List.append_assoc]
    exact Carries.bits _ (.release (.ackWait _ (ih (i + 1))))

/-- Below 450 µs of tolerance, the low pulses of every realization, read with the tolerance, are the symbols that the
spans carry: each realized pulse is over before the next drive, so it is read on its own (R116). -/
theorem Carries.symbolNear_realized {nominal : List Span} {ys : List Symbol} (h : Carries nominal ys) {tol : Nat}
    (htol : tol < 450) {r : Nat} {real : List Span} (hreal : realizes tol nominal real = true) :
    (lowPulses (waveEvents r real)).map (fun p => symbolNear tol p.2) = ys.map some := by
  induction h generalizing r real with
  | nil =>
    rw [realizes_nil hreal]
    rfl
  | pulse y _ ih =>
    obtain ⟨low, high, real', rfl, hband, hrest⟩ := realizes_pulse_cons hreal
    have hy : y.realizedBy tol low high = true := hband
    obtain ⟨hlow, hhigh⟩ := Symbol.realized_phases_pos htol hy
    have hlater : ∀ e ∈ waveEvents (r + (low + high)) real', r + low < e.time := by
      intro e he
      have := le_time_of_mem_waveEvents e he
      omega
    rw [waveEvents, Span.events, Span.us, lowPulses_pulse hlow hlater, List.map_cons, symbolNear_of_realizedBy htol hy,
      ih hrest, List.map_cons]
  | release _ ih =>
    obtain ⟨real', rfl, hrest⟩ := realizes_drive_cons hreal
    rw [waveEvents, Span.events, List.singleton_append, lowPulses_release, ih hrest]
  | ackWait us _ ih =>
    obtain ⟨us', real', rfl, -, hrest⟩ := realizes_ackWait_cons hreal
    rw [waveEvents, Span.events, List.nil_append, ih hrest]

/-- Settles O60: the spans of the transmission (`everyPhaseOfACommandIsASpan`) carry the start bit and the blocks sent,
and every realization of them reads back (`Carries.symbolNear_realized`). -/
theorem aRealizedFrameReadsBack : Obligations.ARealizedFrameReadsBack := by
  intro n s bytes h1 h16 hlen hcells hd hl
  have ht := exec_transmit_afterFrame h1 h16 (Memory.readFrame_of_cells hlen hcells) hd hl
  refine ⟨_, ht, fun tol r real htol hreal => ?_⟩
  have hphases := everyPhaseOfACommandIsASpan _ s _ ht
  have hspans := (if_pos ⟨h1, h16, (State.lineLevel_released hd).1.trans hl⟩).mp hphases bytes hlen hcells
  rw [hspans] at hreal
  rw [← hlen, ← State.sentBlocks_bytes, hlen]
  exact (Carries.pulse .start (carries_blocks n.toNat 0 (s.sentBlocks bytes))).symbolNear_realized htol hreal

end Sys2Proof.Machine
end
